-- ==== Sys2Proof/Word.lean ====
section
/-! DEFINITION. The machine word and the memory cell (spec/00_scope.md R5 XLEN = 32, R6; spec/20_memory.md R51). -/

namespace Sys2Proof

/-- A 32-bit word: register, ALU, pc and address width (R5 `XLEN`). -/
abbrev Word := BitVec 32

/-- One memory cell of 8 bits (R51). -/
abbrev Byte := BitVec 8

end Sys2Proof
end

