-- ==== Sys2Proof/Machine/Flags.lean ====
section
/-! DEFINITION. The ALU with its one flag, the combinational zero flag (spec/40_engine.md R140, R151; spec/10_state.md R30),
and the multiply unit beside it (R143). No flag is stored. -/

namespace Sys2Proof.Machine

/-- `ALUOp`, the ALU operation class (R31, R131). -/
inductive AluOp where
  | add
  | sub
  | rtype
  /-- The code `0b11`, which no opcode uses. -/
  | unused
deriving DecidableEq, Repr

/-- "Set the zero flag when the result is exactly zero" (R140). -/
def zeroFlag (result : Word) : Bool := result == 0#32

/-- `alu(op_class, a, b)` (R140): add and subtract wrap mod 2^32; any other class yields a zero result. -/
def alu (op : AluOp) (a b : Word) : Word × Bool :=
  match op with
  | .add => (a + b, zeroFlag (a + b))
  | .sub => (a - b, zeroFlag (a - b))
  | .rtype => (0#32, zeroFlag 0#32)
  | .unused => (0#32, zeroFlag 0#32)

/-- The exact signed product as a 64-bit pattern: `p` of R143. -/
def product (a b : Word) : BitVec 64 := BitVec.ofInt 64 (a.toInt * b.toInt)

/-- `mul(a, b)`: `(p[63:32], p[31:0])` (R143). -/
def mulUnit (a b : Word) : Word × Word :=
  ((product a b).extractLsb' 32 32, (product a b).extractLsb' 0 32)

end Sys2Proof.Machine
end

