-- ==== Sys2Proof/Syntax.lean ====
section
/-! DEFINITION. The instructions: one constructor for each row of spec/opcode_table.json. -/

namespace Sys2Proof

/-- A general-register index, 0 to 31 (R20, R89). -/
abbrev Reg := Fin 32

/-- One constructor per row of spec/opcode_table.json. Operands are what the assembler's syntax names: register indices, the
signed immediate and offset, the word index of a jump. A 5-bit field the engine ignores (R94) is kept beside them as it
stands in the word, so that no bit of an encoding is lost (DESIGN CHOICE, safe, log 9). -/
inductive Instr where
  /-- `add rd, rs, rt` (R110, R170); `shamt` ignored. -/
  | add (rd rs rt : Reg) (shamt : BitVec 5)
  /-- `move rd, rs` (R111, R171): an assembler name; its words are those of `add rd, rs, $zero`. -/
  | move (rd rs : Reg) (shamt : BitVec 5)
  /-- `mult rs, rt` (R112, R190); the `rd` and `shamt` fields ignored. -/
  | mult (rs rt : Reg) (rdField shamt : BitVec 5)
  /-- `mflo rd` (R113, R192); the `rs`, `rt` and `shamt` fields ignored. -/
  | mflo (rd : Reg) (rsField rtField shamt : BitVec 5)
  /-- `nop` (R114, R231): an assembler name; its word is `encR(0, 0, 0, 0, FUNCT_NOP)`. -/
  | nop
  /-- The all-zero word (R230). -/
  | haltSentinel
  /-- `addi rt, rs, imm` (R115, R172). -/
  | addi (rt rs : Reg) (imm : Int)
  /-- `beq rs, rt, off` (R116, R210); `off` in words from `pc + 4`. -/
  | beq (rs rt : Reg) (off : Int)
  /-- `j target` (R117, R212); `target` is a word index. -/
  | j (target : Nat)
deriving DecidableEq, Repr

/-- The row's mnemonic in spec/opcode_table.json. -/
def Instr.mnemonic : Instr → String
  | .add _ _ _ _ => "add"
  | .move _ _ _ => "move"
  | .mult _ _ _ _ => "mult"
  | .mflo _ _ _ _ => "mflo"
  | .nop => "nop"
  | .haltSentinel => "halt_sentinel"
  | .addi _ _ _ => "addi"
  | .beq _ _ _ => "beq"
  | .j _ => "j"

end Sys2Proof
end

