-- ==== Sys2Proof/WellFormed.lean ====
section
/-! DEFINITION. Which instructions have an encoding: each argument must fit its width (spec/30_encoding.md R85, D20). -/

namespace Sys2Proof

/-- A signed 16-bit literal: −32768 to 32767 (R85, R115, R116). -/
def fitsSigned16 (v : Int) : Bool := decide (-32768 ≤ v) && decide (v ≤ 32767)

/-- A 26-bit word index (R83, R117). -/
def fitsUnsigned26 (n : Nat) : Bool := decide (n < 2 ^ 26)

/-- R85: "An argument that does not fit is an encoding error, never a silent truncation." Register indices and the 5-bit
fields fit by their types. -/
def Instr.wellFormed : Instr → Bool
  | .add _ _ _ _ => true
  | .move _ _ _ => true
  | .mult _ _ _ _ => true
  | .mflo _ _ _ _ => true
  | .nop => true
  | .haltSentinel => true
  | .addi _ _ imm => fitsSigned16 imm
  | .beq _ _ off => fitsSigned16 off
  | .j target => fitsUnsigned26 target

end Sys2Proof
end

