-- ==== Sys2Proof/Decode.lean ====
section
/-! DEFINITION. The bit-field codec (spec/30_encoding.md R80 to R86), the opcode map (R90 to R94), the decoder and, after it,
the encoder (R110 to R117). -/

namespace Sys2Proof

/-! ### The numbers (spec/00_scope.md R5). PRESUMED: the spec marks all but `OPC_RTYPE` and `FUNCT_NOP = 0` as general
knowledge (MIPS32 numbering, D1, D2); unsafe, log 1. -/

/-- `OPC_RTYPE`, derived from the nop row (R90). -/
def opcRtype : BitVec 6 := 0b000000#6
/-- `OPC_ADDI` (D1). -/
def opcAddi : BitVec 6 := 0b001000#6
/-- `OPC_BEQ` (D1). -/
def opcBeq : BitVec 6 := 0b000100#6
/-- `OPC_J` (D1). -/
def opcJ : BitVec 6 := 0b000010#6
/-- `FUNCT_ADD` (D2). -/
def functAdd : BitVec 6 := 0b100000#6
/-- `FUNCT_MULT` (D2). -/
def functMult : BitVec 6 := 0b011000#6
/-- `FUNCT_MFLO` (D2). -/
def functMflo : BitVec 6 := 0b010010#6
/-- `FUNCT_NOP`: OPEN, the default 0 taken (D3; log 2). Only the assembler's `nop` depends on it. -/
def functNop : BitVec 6 := 0b000000#6

/-! ### Byte order (spec/20_memory.md R52): big-endian -/

/-- The word of four bytes, the first at the lowest address and most significant (R52). -/
def wordOfBytes (b0 b1 b2 b3 : Byte) : Word := b0 ++ b1 ++ b2 ++ b3

/-- Byte `k` of a word in memory order: byte 0 is bits 31:24 (R52). -/
def byteOfWord (w : Word) : Nat → Byte
  | 0 => w.extractLsb' 24 8
  | 1 => w.extractLsb' 16 8
  | 2 => w.extractLsb' 8 8
  | _ => w.extractLsb' 0 8

/-- The four bytes of a word in memory order (R52). -/
def bytesOfWord (w : Word) : List Byte :=
  [byteOfWord w 0, byteOfWord w 1, byteOfWord w 2, byteOfWord w 3]

/-! ### Field extraction (R84) -/

/-- Bits 31:26. -/
def opcodeOf (w : Word) : BitVec 6 := w.extractLsb' 26 6
/-- Bits 25:21. -/
def rsOf (w : Word) : BitVec 5 := w.extractLsb' 21 5
/-- Bits 20:16. -/
def rtOf (w : Word) : BitVec 5 := w.extractLsb' 16 5
/-- Bits 15:11. -/
def rdOf (w : Word) : BitVec 5 := w.extractLsb' 11 5
/-- Bits 10:6. -/
def shamtOf (w : Word) : BitVec 5 := w.extractLsb' 6 5
/-- Bits 5:0. -/
def functOf (w : Word) : BitVec 6 := w.extractLsb' 0 6
/-- Bits 15:0. -/
def immOf (w : Word) : BitVec 16 := w.extractLsb' 0 16
/-- Bits 25:0. -/
def targetOf (w : Word) : BitVec 26 := w.extractLsb' 0 26

/-- The register a 5-bit field names (R89). -/
def regOfBits (b : BitVec 5) : Reg := b.toFin
/-- The 5-bit field of a register index (R89). -/
def bitsOfReg (r : Reg) : BitVec 5 := BitVec.ofFin r

/-- The 16-bit field of a signed value: `mod_2^16(v)` (R85). -/
def immField (v : Int) : BitVec 16 := BitVec.ofInt 16 v
/-- The 26-bit field of a word index (R85). -/
def targetField (n : Nat) : BitVec 26 := BitVec.ofNat 26 n

/-! ### The decoder -/

/-- Why a word is no instruction (R92). -/
inductive DecodeError where
  /-- The opcode is none of the four recognised opcodes. -/
  | illegalOpcode
  /-- An R-type word whose funct is none of add, mult, mflo. -/
  | illegalFunct
  /-- Fewer than four bytes: no instruction is shorter than a word (R80, R95). -/
  | truncated
deriving DecidableEq, Repr

/-- R92's order: the sentinel, then the opcode, then the funct; unused fields are not checked (R94). -/
def decodeWord (w : Word) : Except DecodeError Instr :=
  if w = 0#32 then .ok .haltSentinel
  else if opcodeOf w = opcRtype then
    if functOf w = functAdd then
      .ok (.add (regOfBits (rdOf w)) (regOfBits (rsOf w)) (regOfBits (rtOf w)) (shamtOf w))
    else if functOf w = functMult then
      .ok (.mult (regOfBits (rsOf w)) (regOfBits (rtOf w)) (rdOf w) (shamtOf w))
    else if functOf w = functMflo then
      .ok (.mflo (regOfBits (rdOf w)) (rsOf w) (rtOf w) (shamtOf w))
    else .error .illegalFunct
  else if opcodeOf w = opcAddi then
    .ok (.addi (regOfBits (rtOf w)) (regOfBits (rsOf w)) (immOf w).toInt)
  else if opcodeOf w = opcBeq then
    .ok (.beq (regOfBits (rsOf w)) (regOfBits (rtOf w)) (immOf w).toInt)
  else if opcodeOf w = opcJ then
    .ok (.j (targetOf w).toNat)
  else .error .illegalOpcode

/-- The decoder on any bytes, in memory order: one instruction and the bytes after it (R80, R95). -/
def decodeBytes : List Byte → Except DecodeError (Instr × List Byte)
  | b0 :: b1 :: b2 :: b3 :: rest =>
    match decodeWord (wordOfBytes b0 b1 b2 b3) with
    | .ok i => .ok (i, rest)
    | .error e => .error e
  | _ => .error .truncated

/-- The word whose bits the opcode table numbers, of which only the low `nbits` may be set. -/
def tableWord (nbits w : Nat) : Word := BitVec.ofNat 32 (w % 2 ^ nbits)

/-- The instruction the decoder reads from the table's word, laid out in memory order. -/
def decodeTableWord (nbits w : Nat) : Option Instr :=
  match decodeBytes (bytesOfWord (tableWord nbits w)) with
  | .ok (i, _) => some i
  | .error _ => none

/-! ### The encoder -/

/-- R85 `encR`. -/
def encR (rs rt rd shamt : BitVec 5) (funct : BitVec 6) : Word :=
  opcRtype ++ rs ++ rt ++ rd ++ shamt ++ funct
/-- R85 `encI`. -/
def encI (op : BitVec 6) (rs rt : BitVec 5) (imm : BitVec 16) : Word := op ++ rs ++ rt ++ imm
/-- R85 `encJ`. -/
def encJ (op : BitVec 6) (target : BitVec 26) : Word := op ++ target

/-- The fields of each mnemonic's word (R110 to R117). -/
def encodeFields : Instr → Word
  | .add rd rs rt shamt => encR (bitsOfReg rs) (bitsOfReg rt) (bitsOfReg rd) shamt functAdd
  | .move rd rs shamt => encR (bitsOfReg rs) 0#5 (bitsOfReg rd) shamt functAdd
  | .mult rs rt rdField shamt => encR (bitsOfReg rs) (bitsOfReg rt) rdField shamt functMult
  | .mflo rd rsField rtField shamt => encR rsField rtField (bitsOfReg rd) shamt functMflo
  | .nop => encR 0#5 0#5 0#5 0#5 functNop
  | .haltSentinel => 0#32
  | .addi rt rs imm => encI opcAddi (bitsOfReg rs) (bitsOfReg rt) (immField imm)
  | .beq rs rt off => encI opcBeq (bitsOfReg rs) (bitsOfReg rt) (immField off)
  | .j target => encJ opcJ (targetField target)

/-- The word of a well-formed instruction; an argument that does not fit is an encoding error (R85). -/
def encode (i : Instr) : Option Word :=
  if i.wellFormed then some (encodeFields i) else none

/-- The instruction the engine sees for the words of `i`: `move` is `add` with `rt = 0` (R111, R171), and `nop` with
`FUNCT_NOP = 0` is the sentinel (R114, R231). Every other instruction is its own. -/
def Instr.canonical : Instr → Instr
  | .add rd rs rt shamt => .add rd rs rt shamt
  | .move rd rs shamt => .add rd rs 0 shamt
  | .mult rs rt rdField shamt => .mult rs rt rdField shamt
  | .mflo rd rsField rtField shamt => .mflo rd rsField rtField shamt
  | .nop => .haltSentinel
  | .haltSentinel => .haltSentinel
  | .addi rt rs imm => .addi rt rs imm
  | .beq rs rt off => .beq rs rt off
  | .j target => .j target

/-! ### The opcode table as data (spec/opcode_table.json) -/

/-- One row: the word matches when its bits under `mask` are `pattern`. -/
structure OpRow where
  mnemonic : String
  mask : Word
  pattern : Word
deriving DecidableEq, Repr

/-- Does the word match the row? -/
def OpRow.hits (r : OpRow) (w : Word) : Bool := w &&& r.mask == r.pattern

/-- The rows the engine tells apart; the rows of `move` and `nop` are other names of words of `add` and of the sentinel. -/
def coreRows : List OpRow :=
  [⟨"add", 0xFC00003F#32, 0x00000020#32⟩,
   ⟨"mult", 0xFC00003F#32, 0x00000018#32⟩,
   ⟨"mflo", 0xFC00003F#32, 0x00000012#32⟩,
   ⟨"halt_sentinel", 0xFFFFFFFF#32, 0x00000000#32⟩,
   ⟨"addi", 0xFC000000#32, 0x20000000#32⟩,
   ⟨"beq", 0xFC000000#32, 0x10000000#32⟩,
   ⟨"j", 0xFC000000#32, 0x08000000#32⟩]

/-- The bits of a core instruction's word that its meaning reads: all but the unused fields of R94. -/
def usedMask : Instr → Word
  | .add _ _ _ _ => 0xFFFFF83F#32
  | .move _ _ _ => 0xFFFFF83F#32
  | .mult _ _ _ _ => 0xFFFF003F#32
  | .mflo _ _ _ _ => 0xFC00F83F#32
  | .nop => 0xFFFFFFFF#32
  | .haltSentinel => 0xFFFFFFFF#32
  | .addi _ _ _ => 0xFFFFFFFF#32
  | .beq _ _ _ => 0xFFFFFFFF#32
  | .j _ => 0xFFFFFFFF#32

end Sys2Proof
end

