-- ==== Sys2Proof/Machine/Operands.lean ====
section
/-! DEFINITION. Operand assembly: the sign-extended immediate (spec/30_encoding.md R87) and the three next-pc candidates
(R88; spec/40_engine.md R150). No instruction has a memory addressing mode (spec/20_memory.md R70). -/

namespace Sys2Proof.Machine

/-- `simm = sext_32(imm)` (R87). -/
def signExtend32 (imm : BitVec 16) : Word := imm.signExtend 32

/-- `seq = mod_2^32(pc + 4)` (R150). -/
def seqPc (pc : Word) : Word := pc + 4#32

/-- `btgt = mod_2^32(seq + mod_2^32(simm << 2))` (R150). -/
def branchTarget (pc : Word) (imm : BitVec 16) : Word := seqPc pc + signExtend32 imm <<< 2

/-- `jtgt = pc[31:28] : target : 0b00`, from the pc of the jump itself (R88, D21). -/
def jumpTarget (pc : Word) (target : BitVec 26) : Word := pc.extractLsb' 28 4 ++ target ++ 0b00#2

end Sys2Proof.Machine
end

