-- ==== Sys2Proof/Config.lean ====
section
/-! DEFINITION. What the spec leaves to the implementation (spec/00_scope.md R5): the alternatives a parameter may take and
the two values it leaves OPEN. The values this hardware takes for the other parameters stand in Machine/Params.lean, the
opcode and funct numbers in Decode.lean. -/

namespace Sys2Proof

/-- `FETCH_OOR_POLICY` (R5, R56): what a fetch at or beyond `IMEM_BYTES` does. -/
inductive FetchPolicy where
  /-- The default: the fault `FETCH_OUT_OF_RANGE`. -/
  | fault
  /-- The reference design: the all-zero word, which halts. -/
  | zero
deriving DecidableEq, Repr

/-- `ASM_UNKNOWN_REG` (R5, R105): what the assembler does with an unknown register name. -/
inductive UnknownRegPolicy where
  /-- The default: an assembly error. -/
  | error
  /-- The reference quirk: the name encodes as index 0. -/
  | zero
deriving DecidableEq, Repr

/-- `HI_RESET` of launch `n`: OPEN, any 32-bit value (R36, D12). No body: nothing is provable about its value.
DESIGN CHOICE, safe (log 3): one free value for each launch. -/
opaque Config.hiReset : Nat → Word

/-- `LO_RESET` of launch `n`: OPEN, any 32-bit value (R36, D12). No body, as `Config.hiReset`. DESIGN CHOICE, safe (log 3). -/
opaque Config.loReset : Nat → Word

end Sys2Proof
end

