-- ==== Sys2Proof/Machine/Params.lean ====
section
/-! DEFINITION. The values this hardware takes for the parameters of spec/00_scope.md R5 that are neither opcode numbers
(Decode.lean) nor OPEN (Config.lean). -/

namespace Sys2Proof.Machine

/-- `IMEM_BYTES`: 4096 bytes, 1024 words (R5, R50; conflict C1, D10). -/
def imemBytes : Nat := 4096

/-- `DMEM_BYTES`: 4096 bytes, 1024 words (R5, R50; conflict C1, D10). -/
def dmemBytes : Nat := 4096

/-- `FETCH_OOR_POLICY` of this hardware: `fault` (R5, R56; conflict C2, D9; log 6). -/
def fetchOorPolicy : FetchPolicy := .fault

/-- `ASM_UNKNOWN_REG` of this hardware: `error` (R5, R105; D18; log 18). -/
def asmUnknownReg : UnknownRegPolicy := .error

end Sys2Proof.Machine
end

