-- ==== Sys2Proof/Machine/State.lean ====
section
/-! DEFINITION. The machine's state as plain data (spec/10_state.md), the reasons it can stop, and the state after reset. -/

namespace Sys2Proof.Machine

/-- A memory: the listed (address, byte) cells, in the canonical form `Memory.wf` of Machine/Ops.lean. An unlisted address
reads as 0 (R36: the instruction memory beyond the image, D14; the data memory by default, D13; log 4). -/
abbrev Memory := List Host.Cell

/-- The fault causes of spec/60_exceptions.md R241, in the order of their codes. A fault is TAKEN (R240): it becomes the run
status `FAULTED`, in a next state; the step function never answers `Host.Outcome.fault` (log 5). -/
inductive Fault where
  /-- Code 1. Raised by the fetch of any word when `pc` is no multiple of 4 (R55, R56). Safe: the spec's own fault. -/
  | fetchMisaligned
  /-- Code 2. Raised by the fetch at or beyond `IMEM_BYTES` under the policy `fault` (R56). Safe: where the reference design
  halts normally, the model records a fault (conflict C2). -/
  | fetchOutOfRange
  /-- Code 3. Raised by decode for an opcode that is none of the four (R92, R130). Safe: the spec's own fault. -/
  | illegalOpcode
  /-- Code 4. Raised by decode for an R-type funct that is none of the three (R92, R142). Safe: the spec's own fault. -/
  | illegalFunct
  /-- Code 5. Raised by the data port, which only the host uses (R60, R61). Safe: reported to the host. -/
  | dataMisaligned
  /-- Code 6. Raised by the data port, which only the host uses (R60, R61). Safe: reported to the host. -/
  | dataOutOfRange
deriving DecidableEq, Repr

/-- The code of a cause (R241). -/
def Fault.code : Fault → Nat
  | .fetchMisaligned => 1
  | .fetchOutOfRange => 2
  | .illegalOpcode => 3
  | .illegalFunct => 4
  | .dataMisaligned => 5
  | .dataOutOfRange => 6

/-- Why a step has no meaning. Every instruction of this hardware has its meaning, so no step answers one. -/
inductive Refusal where
  /-- Raised by an arm of `exec` whose instruction has no meaning yet (none is left). Safe: nothing is provable of it. -/
  | notModelled (mnemonic : String)
deriving DecidableEq, Repr

/-- The run status (R34). `HALTED` and `FAULTED` are final. -/
inductive Status where
  /-- The next step executes a cycle. -/
  | running
  /-- The sentinel was fetched (R230). -/
  | halted
  /-- A fault stopped the engine (R240); a fetch fault records no word (R241). -/
  | faulted (cause : Fault) (pc : Word) (word : Option Word)
deriving DecidableEq, Repr

/-- Everything the spec gives the machine (R33, R35). -/
structure State where
  /-- `x[0]` to `x[31]` (R20). Slot 0 holds 0 from reset on; reads and writes go through `readReg` and `writeReg`. -/
  gpr : Vector Word 32
  /-- The program counter (R25). -/
  pc : Word
  /-- The upper half of the last product (R29). -/
  hi : Word
  /-- The lower half of the last product (R29). -/
  lo : Word
  /-- The instruction memory (R35, R50). -/
  imem : Memory
  /-- The data memory (R35, R50). -/
  dmem : Memory
  /-- The run status (R34). -/
  status : Status
deriving DecidableEq, Repr

/-- R36, R270: the state after the reset of launch `n`, with no image loaded. `HI` and `LO` are OPEN (log 3). -/
def State.resetOfLaunch (n : Nat) : State where
  gpr := Vector.replicate 32 0#32
  pc := 0#32
  hi := Config.hiReset n
  lo := Config.loReset n
  imem := []
  dmem := []
  status := .running

/-- R36, R270: the machine right after its first reset, nothing loaded yet. -/
def State.reset : State := State.resetOfLaunch 0

end Sys2Proof.Machine
end

