-- ==== Sys2Proof/Machine/Ops.lean ====
section
/-! DEFINITION. The named operations every meaning is written over: registers (spec/10_state.md R21, R22), memories
(spec/20_memory.md), the program counter, halting (spec/44_nop_halt.md R230) and taking a fault (spec/60_exceptions.md R240). -/

namespace Sys2Proof.Machine

/-! ### General registers -/

/-- `x[r]`: register 0 reads as 0 (R21). -/
def readReg (s : State) (r : Reg) : Word :=
  if r = 0 then 0#32 else s.gpr[r.val]

/-- `x[r] <- v`: discarded for register 0 (R22). -/
def writeReg (s : State) (r : Reg) (v : Word) : State :=
  if r = 0 then s else { s with gpr := s.gpr.set r.val v }

/-! ### HI, LO, pc, status -/

/-- `HI <- hi`, `LO <- lo` (R29). -/
def writeHiLo (s : State) (hi lo : Word) : State := { s with hi := hi, lo := lo }

/-- `pc <- target` (R7, R150). -/
def setPc (s : State) (target : Word) : State := { s with pc := target }

/-- `pc <- mod_2^32(pc + 4)` (R150 `seq`). -/
def advance (s : State) : State := setPc s (s.pc + 4#32)

/-- `halt` (R7, R230): the status becomes HALTED, and nothing else changes. -/
def halt (s : State) : State := { s with status := .halted }

/-- `raise Fault(cause, …)` (R240, R246): the status becomes FAULTED with the cycle's pc and the word, if one was fetched;
none of the cycle's writes is committed. There is no return from it (R247). -/
def raiseFault (cause : Fault) (word : Option Word) (s : State) : State :=
  { s with status := .faulted cause s.pc word }

/-! ### Memories: one byte -/

/-- The byte at an address; an unlisted address reads as 0 (log 4). -/
def Memory.read : Memory → Nat → Byte
  | [], _ => 0#8
  | (a, b) :: rest, x => if x = a then b else Memory.read rest x

/-- Stores a byte and keeps the canonical form: a zero byte is not listed. -/
def Memory.write : Memory → Nat → Byte → Memory
  | [], x, v => if v = 0#8 then [] else [(x, v)]
  | (a, b) :: rest, x, v =>
    if x < a then (if v = 0#8 then (a, b) :: rest else (x, v) :: (a, b) :: rest)
    else if x = a then (if v = 0#8 then rest else (x, v) :: rest)
    else (a, b) :: Memory.write rest x v

/-- The canonical form: addresses strictly rising, no zero byte listed. -/
def Memory.wf : Memory → Bool
  | [] => true
  | (a, b) :: rest => decide (b ≠ 0#8) && rest.all (fun c => decide (a < c.1)) && Memory.wf rest

/-- Every listed address is below `cap` (R50: no cell outside the memory exists). -/
def Memory.below (cap : Nat) (m : Memory) : Bool := m.all (fun c => decide (c.1 < cap))

/-! ### Memories: one word, big-endian (R52) -/

/-- `M[a] : M[a+1] : M[a+2] : M[a+3]`. -/
def Memory.readWord (m : Memory) (a : Nat) : Word :=
  wordOfBytes (m.read a) (m.read (a + 1)) (m.read (a + 2)) (m.read (a + 3))

/-- `M[a] <- v[31:24]; … M[a+3] <- v[7:0]`. -/
def Memory.writeWord (m : Memory) (a : Nat) (v : Word) : Memory :=
  (((m.write a (byteOfWord v 0)).write (a + 1) (byteOfWord v 1)).write (a + 2) (byteOfWord v 2)).write
    (a + 3) (byteOfWord v 3)

/-- The memory that holds `bytes` from address `base` up and 0 elsewhere, in canonical form (R271, D14). -/
def Memory.ofBytesAt : Nat → List Byte → Memory
  | _, [] => []
  | base, b :: rest =>
    if b = 0#8 then Memory.ofBytesAt (base + 1) rest else (base, b) :: Memory.ofBytesAt (base + 1) rest

/-- Is the address a multiple of 4 (R55, R60)? -/
def aligned (a : Word) : Bool := a.extractLsb' 0 2 == 0#2

/-! ### Instruction fetch -/

/-- `IFetch(a)` under a policy (R55, R56): alignment first, then range (D27). -/
def ifetch (policy : FetchPolicy) (imem : Memory) (a : Word) : Except Fault Word :=
  if aligned a = false then .error .fetchMisaligned
  else if imemBytes ≤ a.toNat then
    match policy with
    | .fault => .error .fetchOutOfRange
    | .zero => .ok 0#32
  else .ok (imem.readWord a.toNat)

/-! ### The data port (R60): used by no instruction (R61), only by the host -/

/-- What the data port reports: the cause and the address (R241). -/
structure DataError where
  cause : Fault
  addr : Word
deriving DecidableEq, Repr

/-- The checks of R60: alignment, then range. -/
def dataCheck (a : Word) : Except DataError Unit :=
  if aligned a = false then .error ⟨.dataMisaligned, a⟩
  else if dmemBytes ≤ a.toNat then .error ⟨.dataOutOfRange, a⟩
  else .ok ()

/-- `MemRead(a, 4)` (R60). -/
def dataRead (dmem : Memory) (a : Word) : Except DataError Word :=
  match dataCheck a with
  | .error e => .error e
  | .ok _ => .ok (dmem.readWord a.toNat)

/-- `MemWrite(a, 4, v)` (R60). -/
def dataWrite (dmem : Memory) (a v : Word) : Except DataError Memory :=
  match dataCheck a with
  | .error e => .error e
  | .ok _ => .ok (dmem.writeWord a.toNat v)

end Sys2Proof.Machine
end

