-- ==== Sys2Proof/Machine/Arith.lean ====
section
/-! DEFINITION. The integer add instructions (spec/41_add_addi_move.md). -/

namespace Sys2Proof.Machine

/-- An instruction that writes one result to a register and goes on: all reads come before the write (R152). -/
def writeResult (s : State) (dest : Reg) (value : Word) : State := advance (writeReg s dest value)

/-- R170 `add rd, rs, rt`: `x[rd] <- mod_2^32(x[rs] + x[rt])`; `shamt` is ignored (R94). -/
def execAdd (rd rs rt : Reg) (_shamt : BitVec 5) (s : State) : Host.Outcome State Fault Refusal :=
  .next (writeResult s rd (alu .add (readReg s rs) (readReg s rt)).1)

/-- R171 `move rd, rs`: `x[rd] <- mod_2^32(x[rs] + x[0])`. -/
def execMove (rd rs : Reg) (_shamt : BitVec 5) (s : State) : Host.Outcome State Fault Refusal :=
  .next (writeResult s rd (alu .add (readReg s rs) (readReg s 0)).1)

/-- R172 `addi rt, rs, imm`: `x[rt] <- mod_2^32(x[rs] + sext_32(imm[15:0]))`. -/
def execAddi (rt rs : Reg) (imm : Int) (s : State) : Host.Outcome State Fault Refusal :=
  .next (writeResult s rt (alu .add (readReg s rs) (signExtend32 (immField imm))).1)

end Sys2Proof.Machine
end

