-- ==== Sys2Proof/Machine/Branch.lean ====
section
/-! DEFINITION. The control transfers (spec/43_branch_jump.md). No delay slot, no link (R150, R214). -/

namespace Sys2Proof.Machine

/-- R210 `beq rs, rt, off`: to `pc + 4 + 4*off` when the subtraction's zero flag is set, else to `pc + 4`. -/
def execBeq (rs rt : Reg) (off : Int) (s : State) : Host.Outcome State Fault Refusal :=
  .next (setPc s
    (if (alu .sub (readReg s rs) (readReg s rt)).2 then branchTarget s.pc (immField off) else seqPc s.pc))

/-- R212 `j target`: `pc <- pc[31:28] : target : 0b00`. -/
def execJ (target : Nat) (s : State) : Host.Outcome State Fault Refusal :=
  .next (setPc s (jumpTarget s.pc (targetField target)))

end Sys2Proof.Machine
end

