-- ==== Sys2Proof/Machine/Halt.lean ====
section
/-! DEFINITION. The halt sentinel and the assembler's `nop` (spec/44_nop_halt.md). -/

namespace Sys2Proof.Machine

/-- R230: the all-zero word halts; pc, registers, HI, LO and memories unchanged. -/
def execHaltSentinel (s : State) : Host.Outcome State Fault Refusal := .next (halt s)

/-- R231 for any nop-code other than add, mult and mflo: with `FUNCT_NOP = 0` the word of `nop` is the sentinel; with another
nop-code it is an R-type word the engine does not dispatch (R93). It never only advances pc (conflict C5). -/
def nopUnder (nopCode : BitVec 6) (s : State) : State :=
  if encR 0#5 0#5 0#5 0#5 nopCode = 0#32 then halt s
  else raiseFault .illegalFunct (some (encR 0#5 0#5 0#5 0#5 nopCode)) s

/-- R231 `nop`, with this model's `FUNCT_NOP` (log 2). -/
def execNop (s : State) : Host.Outcome State Fault Refusal := .next (nopUnder functNop s)

end Sys2Proof.Machine
end

