-- ==== Sys2Proof/Machine/Multiply.lean ====
section
/-! DEFINITION. The multiply instructions (spec/42_multiply.md). -/

namespace Sys2Proof.Machine

/-- R190 `mult rs, rt`: HI and LO take the signed 64-bit product; no general register is written (R146). The `rd` and
`shamt` fields are ignored (R94). -/
def execMult (rs rt : Reg) (_rdField _shamt : BitVec 5) (s : State) : Host.Outcome State Fault Refusal :=
  let p := mulUnit (readReg s rs) (readReg s rt)
  .next (advance (writeHiLo s p.1 p.2))

/-- R192 `mflo rd`: `x[rd] <- LO`. The `rs`, `rt` and `shamt` fields are ignored (R94). -/
def execMflo (rd : Reg) (_rsField _rtField _shamt : BitVec 5) (s : State) : Host.Outcome State Fault Refusal :=
  .next (writeResult s rd s.lo)

end Sys2Proof.Machine
end

