-- ==== Sys2Proof/Machine/Dispatch.lean ====
section
/-! DEFINITION. One arm per instruction. -/

namespace Sys2Proof.Machine

def exec (i : Instr) (s : State) : Host.Outcome State Fault Refusal :=
  match i with
  | .add rd rs rt shamt => Sys2Proof.Machine.execAdd rd rs rt shamt s
  | .move rd rs shamt => Sys2Proof.Machine.execMove rd rs shamt s
  | .mult rs rt rdField shamt => Sys2Proof.Machine.execMult rs rt rdField shamt s
  | .mflo rd rsField rtField shamt => Sys2Proof.Machine.execMflo rd rsField rtField shamt s
  | .nop => Sys2Proof.Machine.execNop s
  | .haltSentinel => Sys2Proof.Machine.execHaltSentinel s
  | .addi rt rs imm => Sys2Proof.Machine.execAddi rt rs imm s
  | .beq rs rt off => Sys2Proof.Machine.execBeq rs rt off s
  | .j target => Sys2Proof.Machine.execJ target s

end Sys2Proof.Machine
end

