-- ==== Sys2Proof/Machine/Cycle.lean ====
section
/-! DEFINITION. One cycle (spec/40_engine.md R152): the status test, fetch, decode, and the instruction's meaning. -/

namespace Sys2Proof.Machine

/-- The fault an undecodable word raises (R92, R241). A fetched word is never truncated. -/
def faultOfDecode : DecodeError → Fault
  | .illegalOpcode => .illegalOpcode
  | .illegalFunct => .illegalFunct
  | .truncated => .illegalOpcode

/-- Fetch and decode at `pc`: the instruction, or the fault with the word it records (R241, R245). -/
def fetchDecode (policy : FetchPolicy) (s : State) : Except (Fault × Option Word) Instr :=
  match ifetch policy s.imem s.pc with
  | .error cause => .error (cause, none)
  | .ok w =>
    match decodeWord w with
    | .error e => .error (faultOfDecode e, some w)
    | .ok i => .ok i

/-- `step()` under a fetch policy (R152): nothing unless RUNNING; a fault is taken, else the instruction runs. -/
def stepUnder (policy : FetchPolicy) (s : State) : Host.Outcome State Fault Refusal :=
  if s.status = .running then
    match fetchDecode policy s with
    | .error (cause, word) => .next (raiseFault cause word s)
    | .ok i => exec i s
  else .next s

/-- Can `pc` be fetched from (R55)? -/
def fetchable (pc : Word) : Bool := aligned pc && decide (pc.toNat < imemBytes)

/-- `s` made ready to run the word `w` at its very next step: `w` at `pc` in the instruction memory, the status RUNNING. A `pc`
outside the instruction memory is set to the reset vector, since no word can be placed at it (log 11). -/
def placeFetchWord (s : State) (w : Word) : State :=
  let pc := if fetchable s.pc then s.pc else 0#32
  { s with pc := pc, imem := s.imem.writeWord pc.toNat w, status := .running }

end Sys2Proof.Machine
end

