-- ==== Sys2Proof/Machine/Step.lean ====
section
/-! DEFINITION. The machine's step and the host's aid to place one instruction. -/

namespace Sys2Proof.Machine

/-- One cycle of this hardware (R152), with its `FETCH_OOR_POLICY`. -/
def step (s : State) : Host.Outcome State Fault Refusal := stepUnder fetchOorPolicy s

/-- `s` with the opcode table's word stored where `step` fetches next; it stands for the loader (log 11). -/
def State.withFetchWord (s : State) (nbits w : Nat) : State := placeFetchWord s (tableWord nbits w)

end Sys2Proof.Machine
end

