-- ==== Sys2Proof/Machine/Datapath.lean ====
section
/-! DEFINITION. The engine as the spec draws it: the control decoder (spec/40_engine.md R130 to R132), the dispatch (R142), the
writeback (R144 to R146), the PC-update multiplexer (R150) and the cycle over them (R152). It is the second reading of the same
machine: an obligation states that `stepUnder` and `datapathCycle` are equal. -/

namespace Sys2Proof.Machine

/-! ### Control signals (spec/10_state.md R31) -/

/-- `RegDst`: the destination is the `rd` or the `rt` field (R145). -/
inductive RegDst where | rd | rt
deriving DecidableEq, Repr

/-- `ALUSrc`: the second operand is the register or the immediate (R141). -/
inductive AluSrc where | reg | imm
deriving DecidableEq, Repr

/-- `MemToReg`: the value written back is the ALU's or the memory's (R144). -/
inductive MemToReg where | alu | mem
deriving DecidableEq, Repr

/-- One row of the control table of R131; `none` is an `X`. -/
structure ControlRow where
  regDst : Option RegDst
  aluSrc : Option AluSrc
  memToReg : Option MemToReg
  regWrite : Bool
  memRead : Bool
  memWrite : Bool
  branch : Bool
  aluOp : Option AluOp
  jump : Bool
deriving DecidableEq, Repr

/-- R130, R131: a pure function of the opcode; no signal set for an unrecognised one. -/
def controlRow (op : BitVec 6) : Option ControlRow :=
  if op = opcRtype then
    some ⟨some .rd, some .reg, some .alu, true, false, false, false, some .rtype, false⟩
  else if op = opcAddi then
    some ⟨some .rt, some .imm, some .alu, true, false, false, false, some .add, false⟩
  else if op = opcBeq then
    some ⟨none, some .reg, none, false, false, false, true, some .sub, false⟩
  else if op = opcJ then
    some ⟨none, none, none, false, false, false, false, none, true⟩
  else none

/-- The ten bits of a row in R131's order, most significant first, in the textbook polarities (D6: RD = 1, IMM = 1, MEM = 1;
ALUOp 00, 01, 10, 11); `none` is an `X`. PRESUMED (the spec marks them general knowledge), safe, log 20: no state holds them. -/
def ControlRow.bits (c : ControlRow) : List (Option Bool) :=
  [c.regDst.map (· == .rd), c.aluSrc.map (· == .imm), c.memToReg.map (· == .mem), some c.regWrite, some c.memRead,
   some c.memWrite, some c.branch, c.aluOp.map (fun o => o == .rtype || o == .unused),
   c.aluOp.map (fun o => o == .sub || o == .unused), some c.jump]

/-- What the don't-care signals of one cycle happen to be (R132: any value), and what stands at the memory input of the
writeback multiplexer, which no recognised opcode selects (R144). -/
structure DontCare where
  regDst : RegDst
  aluSrc : AluSrc
  memToReg : MemToReg
  aluOp : AluOp
  memData : Word
deriving DecidableEq, Repr

/-- The signals of a cycle, with every `X` taken from `x`. -/
structure ControlSignals where
  regDst : RegDst
  aluSrc : AluSrc
  memToReg : MemToReg
  regWrite : Bool
  memRead : Bool
  memWrite : Bool
  branch : Bool
  aluOp : AluOp
  jump : Bool
deriving DecidableEq, Repr

/-- A row with its don't-cares filled (R132). -/
def ControlRow.fill (c : ControlRow) (x : DontCare) : ControlSignals where
  regDst := c.regDst.getD x.regDst
  aluSrc := c.aluSrc.getD x.aluSrc
  memToReg := c.memToReg.getD x.memToReg
  regWrite := c.regWrite
  memRead := c.memRead
  memWrite := c.memWrite
  branch := c.branch
  aluOp := c.aluOp.getD x.aluOp
  jump := c.jump

/-! ### Dispatch and writeback -/

/-- What step 7 of the cycle yields: the result, the zero flag, and HI and LO where they are written. -/
structure Dispatched where
  res : Word
  zero : Bool
  hilo : Option (Word × Word)
deriving DecidableEq, Repr

/-- Is the funct one of the three (R92, R142)? -/
def knownFunct (f : BitVec 6) : Bool := f == functAdd || f == functMult || f == functMflo

/-- Steps 7 of R152 for `ALUOp = RTYPE`: dispatch on the funct. Keyed on the opcode as R132 and R142 say, so that a don't-care
`ALUOp` of `j` that happens to be RTYPE writes no HI or LO (DEDUCED, safe, log 7). -/
def dispatchRtype (w a b lo : Word) : Dispatched :=
  if opcodeOf w = opcRtype then
    if functOf w = functAdd then ⟨(alu .add a b).1, (alu .add a b).2, none⟩
    else if functOf w = functMult then ⟨0#32, true, some (mulUnit a b)⟩
    else if functOf w = functMflo then ⟨lo, true, none⟩
    else ⟨0#32, true, none⟩
  else ⟨0#32, true, none⟩

/-- Step 7 of R152 (R142). -/
def dispatch (op : AluOp) (w a b lo : Word) : Dispatched :=
  match op with
  | .add => ⟨(alu .add a b).1, (alu .add a b).2, none⟩
  | .sub => ⟨(alu .sub a b).1, (alu .sub a b).2, none⟩
  | .rtype => dispatchRtype w a b lo
  | .unused => ⟨(alu .unused a b).1, (alu .unused a b).2, none⟩

/-- The effective write enable (R146). -/
def writeEnable (c : ControlSignals) (w : Word) : Bool :=
  c.regWrite && !(opcodeOf w == opcRtype && functOf w == functMult)

/-- The PC-update multiplexer (R150): jump, then taken branch, then sequential. -/
def selectPc (jump branch zero : Bool) (seq btgt jtgt : Word) : Word :=
  if jump then jtgt else if branch && zero then btgt else seq

/-- Steps 4 to 10 of R152 and the commit: everything is read from `s` and written together. -/
def commitCycle (c : ControlSignals) (memData : Word) (w : Word) (s : State) : State :=
  let a := readReg s (regOfBits (rsOf w))
  let r2 := readReg s (regOfBits (rtOf w))
  let simm := signExtend32 (immOf w)
  let b := match c.aluSrc with | .imm => simm | .reg => r2
  let d := dispatch c.aluOp w a b s.lo
  let value := match c.memToReg with | .alu => d.res | .mem => memData
  let dest := match c.regDst with | .rd => regOfBits (rdOf w) | .rt => regOfBits (rtOf w)
  let npc := selectPc c.jump c.branch d.zero (seqPc s.pc) (branchTarget s.pc (immOf w))
    (jumpTarget s.pc (targetOf w))
  let s1 := if writeEnable c w then writeReg s dest value else s
  let s2 := match d.hilo with | some (hi, lo) => writeHiLo s1 hi lo | none => s1
  setPc s2 npc

/-- `step()` as R152 writes it. -/
def datapathCycle (x : DontCare) (policy : FetchPolicy) (s : State) : State :=
  if s.status = .running then
    match ifetch policy s.imem s.pc with
    | .error cause => raiseFault cause none s
    | .ok w =>
      if w = 0#32 then halt s
      else
        match controlRow (opcodeOf w) with
        | none => raiseFault .illegalOpcode (some w) s
        | some c =>
          if opcodeOf w = opcRtype ∧ knownFunct (functOf w) = false then raiseFault .illegalFunct (some w) s
          else commitCycle (c.fill x) x.memData w s
  else s

end Sys2Proof.Machine
end

