-- ==== Sys2Proof/Machine/Asm.lean ====
section
/-! DEFINITION. The two-pass assembler: its syntax and encoding rules (spec/30_encoding.md R100 to R118, R259) and the register
names (spec/10_state.md R24). Text is a list of characters; a source is a list of lines. -/

namespace Sys2Proof.Machine

/-- A piece of source text. -/
abbrev Text := List Char

/-! ### Lexing (R101) -/

/-- A blank: space, tab or carriage return (DESIGN CHOICE, unsafe, log 15). -/
def isBlank (c : Char) : Bool := c == ' ' || c == '\t' || c == '\r'

/-- What separates a mnemonic and its operands: blanks and commas (R101). -/
def isSeparator (c : Char) : Bool := isBlank c || c == ','

/-- The maximal runs of characters that are no separators; `acc` is the run being read, reversed. -/
def tokensFrom (acc : Text) : Text → List Text
  | [] => if acc = [] then [] else [acc.reverse]
  | c :: rest =>
    if isSeparator c then (if acc = [] then tokensFrom [] rest else acc.reverse :: tokensFrom [] rest)
    else tokensFrom (c :: acc) rest

/-- The lines of a text, without their line ends; `acc` is the line being read, reversed. -/
def linesFrom (acc : Text) : Text → List Text
  | [] => [acc.reverse]
  | c :: rest => if c = '\n' then acc.reverse :: linesFrom [] rest else linesFrom (c :: acc) rest

/-- The lines of a source text. -/
def linesOfText (t : Text) : List Text := linesFrom [] t

/-- The four line classes (R101). -/
inductive LineClass where
  | blank
  | comment
  /-- A line that holds `:`; the text before the first one and the text after it. -/
  | label (before after : Text)
  /-- Every other line. -/
  | instruction (mnemonic : Text) (operands : List Text)
deriving DecidableEq, Repr

/-- R101, D19: a comment line is one whose first non-blank character is `#`; a line with `:` is a label line. -/
def classify (line : Text) : LineClass :=
  match line.dropWhile isBlank with
  | [] => .blank
  | c :: rest =>
    if c = '#' then .comment
    else if line.contains ':' then
      .label (line.takeWhile (· != ':')) ((line.dropWhile (· != ':')).drop 1)
    else
      match tokensFrom [] (c :: rest) with
      | [] => .instruction [] []
      | mnemonic :: operands => .instruction mnemonic operands

/-- Does the line take an instruction's place (R103)? -/
def LineClass.isInstruction : LineClass → Bool
  | .instruction _ _ => true
  | .blank => false
  | .comment => false
  | .label _ _ => false

/-! ### Names, literals, registers -/

/-- A text without the blanks around it. -/
def trim (t : Text) : Text := ((t.dropWhile isBlank).reverse.dropWhile isBlank).reverse

/-- The name a label line defines (R102, D30): non-empty, no blank, `,`, `:` or `#`, and only blanks after the `:`. -/
def labelName (before after : Text) : Option Text :=
  let name := trim before
  if name ≠ [] ∧ name.all (fun c => !(isSeparator c || c == ':' || c == '#')) = true ∧ after.all isBlank = true then
    some name
  else none

/-- The value of a decimal digit. -/
def digitOfChar (c : Char) : Option Nat :=
  if '0' ≤ c ∧ c ≤ '9' then some (c.toNat - '0'.toNat) else none

/-- The number of a text of digits, read after `n`. -/
def natFrom (n : Nat) : Text → Option Nat
  | [] => some n
  | c :: rest =>
    match digitOfChar c with
    | some d => natFrom (10 * n + d) rest
    | none => none

/-- One or more decimal digits (R106). -/
def natOfText (t : Text) : Option Nat := if t = [] then none else natFrom 0 t

/-- A decimal literal: an optional sign and one or more digits (R106). -/
def literalOfText : Text → Option Int
  | [] => none
  | c :: rest =>
    if c = '-' then (natOfText rest).map (fun n => -(n : Int))
    else if c = '+' then (natOfText rest).map (fun n => (n : Int))
    else (natOfText (c :: rest)).map (fun n => (n : Int))

/-- The 32 register names in index order (R24). PRESUMED: all but `$zero` and `$ra` are general knowledge (D4; log 1). -/
def registerNames : List String :=
  ["$zero", "$at", "$v0", "$v1", "$a0", "$a1", "$a2", "$a3",
   "$t0", "$t1", "$t2", "$t3", "$t4", "$t5", "$t6", "$t7",
   "$s0", "$s1", "$s2", "$s3", "$s4", "$s5", "$s6", "$s7",
   "$t8", "$t9", "$k0", "$k1", "$gp", "$sp", "$fp", "$ra"]

/-- Names and indices (R24). -/
def registerTable : List (Text × Reg) := (registerNames.map String.toList).zip (List.finRange 32)

/-! ### Errors (R107 to R109, R259) -/

/-- What is wrong with a line. -/
inductive AsmError where
  /-- R107. -/
  | unknownMnemonic
  /-- R108. -/
  | operandCount (expected got : Nat)
  /-- R105 under the policy `error`. -/
  | unknownRegister (name : Text)
  /-- An `addi` immediate that is no decimal literal (R106, R118). -/
  | badLiteral (text : Text)
  /-- A label operand that no line defines (R102). -/
  | undefinedLabel (name : Text)
  /-- A value that does not fit its field (R85, R115 to R117). -/
  | outOfRange
  /-- A `j` literal that is no byte address of a word below 2^28 (R117). -/
  | badJumpAddress
  /-- A label line of a wrong form (R102). -/
  | badLabel
  /-- A name defined twice (R102). -/
  | duplicateLabel
deriving DecidableEq, Repr

/-- A report: "with the offending line and the computed address" (R108). Lines are numbered from 1. -/
structure AsmReport where
  lineNumber : Nat
  address : Nat
  error : AsmError
deriving DecidableEq, Repr

/-! ### Pass 1 (R103) -/

/-- A line with its number, the address pass 1 gives it, and its class. -/
structure PlacedLine where
  lineNumber : Nat
  address : Nat
  line : LineClass
deriving DecidableEq, Repr

/-- The running address: each instruction line takes four bytes (R103). -/
def placeLines (lineNumber address : Nat) : List Text → List PlacedLine
  | [] => []
  | t :: rest =>
    ⟨lineNumber, address, classify t⟩ ::
      placeLines (lineNumber + 1) (if (classify t).isInstruction then address + 4 else address) rest

/-- A bound label: its name, the line that binds it, and the address of the next instruction (R102). -/
structure LabelEntry where
  name : Text
  lineNumber : Nat
  address : Nat
deriving DecidableEq, Repr

/-- The label a line binds. -/
def labelEntryOf (p : PlacedLine) : Option LabelEntry :=
  match p.line with
  | .label before after => (labelName before after).map (fun name => ⟨name, p.lineNumber, p.address⟩)
  | .blank => none
  | .comment => none
  | .instruction _ _ => none

/-- The label table (R103). -/
def labelTable (ps : List PlacedLine) : List LabelEntry := ps.filterMap labelEntryOf

/-- The first entry of a name. -/
def findLabel (table : List LabelEntry) (name : Text) : Option LabelEntry :=
  table.find? (fun e => e.name == name)

/-! ### Pass 2 (R104) -/

/-- R105: the index of a register name, under a policy. -/
def registerOf (policy : UnknownRegPolicy) (name : Text) : Except AsmError Reg :=
  match registerTable.lookup name with
  | some r => .ok r
  | none =>
    match policy with
    | .error => .error (.unknownRegister name)
    | .zero => .ok 0

/-- The offset of a branch at `address` to the byte address `target`, in words (R116). -/
def branchOffset (address target : Nat) : Int := ((target : Int) - ((address : Int) + 4)) / 4

/-- R116: the offset of a `beq` at `address`: a literal as it stands, or a label's displacement. -/
def offsetOf (table : List LabelEntry) (address : Nat) (operand : Text) : Except AsmError Int :=
  match literalOfText operand with
  | some v => .ok v
  | none =>
    match findLabel table operand with
    | some e => .ok (branchOffset address e.address)
    | none => .error (.undefinedLabel operand)

/-- R117: the word index of a `j`: a literal byte address, or a label's address, over 4. -/
def jumpIndexOf (table : List LabelEntry) (operand : Text) : Except AsmError Nat :=
  match literalOfText operand with
  | some v => if 0 ≤ v ∧ v < 2 ^ 28 ∧ v % 4 = 0 then .ok (v / 4).toNat else .error .badJumpAddress
  | none =>
    match findLabel table operand with
    | some e => .ok (e.address / 4)
    | none => .error (.undefinedLabel operand)

/-- The immediate of an `addi` (R106, R115). -/
def immediateOf (operand : Text) : Except AsmError Int :=
  match literalOfText operand with
  | some v => .ok v
  | none => .error (.badLiteral operand)

/-- The eight mnemonics (R107) with their operand counts (R108). -/
def mnemonicCounts : List (Text × Nat) :=
  [("add".toList, 3), ("move".toList, 2), ("mult".toList, 2), ("mflo".toList, 1), ("nop".toList, 0),
   ("addi".toList, 3), ("beq".toList, 3), ("j".toList, 1)]

/-- The instruction of a line whose mnemonic and operand count are right (R110 to R117): ignored fields are written 0. -/
def instrOfOperands (policy : UnknownRegPolicy) (table : List LabelEntry) (address : Nat) (mnemonic : Text) :
    List Text → Except AsmError Instr
  | [] => if mnemonic = "nop".toList then .ok .nop else .error .unknownMnemonic
  | [a] =>
    if mnemonic = "mflo".toList then do
      let rd ← registerOf policy a
      return .mflo rd 0#5 0#5 0#5
    else if mnemonic = "j".toList then do
      let target ← jumpIndexOf table a
      return .j target
    else .error .unknownMnemonic
  | [a, b] =>
    if mnemonic = "move".toList then do
      let rd ← registerOf policy a
      let rs ← registerOf policy b
      return .move rd rs 0#5
    else if mnemonic = "mult".toList then do
      let rs ← registerOf policy a
      let rt ← registerOf policy b
      return .mult rs rt 0#5 0#5
    else .error .unknownMnemonic
  | [a, b, c] =>
    if mnemonic = "add".toList then do
      let rd ← registerOf policy a
      let rs ← registerOf policy b
      let rt ← registerOf policy c
      return .add rd rs rt 0#5
    else if mnemonic = "addi".toList then do
      let rt ← registerOf policy a
      let rs ← registerOf policy b
      let imm ← immediateOf c
      return .addi rt rs imm
    else if mnemonic = "beq".toList then do
      let rs ← registerOf policy a
      let rt ← registerOf policy b
      let off ← offsetOf table address c
      return .beq rs rt off
    else .error .unknownMnemonic
  | _ => .error .unknownMnemonic

/-- One instruction line (R104, R107, R108): its mnemonic, its operand count, its instruction. -/
def instrOfLine (policy : UnknownRegPolicy) (table : List LabelEntry) (address : Nat) (mnemonic : Text)
    (operands : List Text) : Except AsmError Instr :=
  match mnemonicCounts.lookup mnemonic with
  | none => .error .unknownMnemonic
  | some n =>
    if operands.length = n then instrOfOperands policy table address mnemonic operands
    else .error (.operandCount n operands.length)

/-- What a placed line gives: no word, one word, or an error. -/
def wordOfLine (policy : UnknownRegPolicy) (table : List LabelEntry) (p : PlacedLine) : Except AsmError (Option Word) :=
  match p.line with
  | .blank => .ok none
  | .comment => .ok none
  | .label before after =>
    match labelName before after with
    | none => .error .badLabel
    | some name =>
      match findLabel table name with
      | some e => if e.lineNumber = p.lineNumber then .ok none else .error .duplicateLabel
      | none => .ok none
  | .instruction mnemonic operands =>
    match instrOfLine policy table p.address mnemonic operands with
    | .error e => .error e
    | .ok i =>
      match encode i with
      | some w => .ok (some w)
      | none => .error .outOfRange

/-- Every report of the placed lines, in order (R109). -/
def reportsOf (policy : UnknownRegPolicy) (table : List LabelEntry) (ps : List PlacedLine) : List AsmReport :=
  ps.filterMap (fun p =>
    match wordOfLine policy table p with
    | .error e => some ⟨p.lineNumber, p.address, e⟩
    | .ok _ => none)

/-- Every word of the placed lines, in order (R100). -/
def wordsOf (policy : UnknownRegPolicy) (table : List LabelEntry) (ps : List PlacedLine) : List Word :=
  ps.filterMap (fun p =>
    match wordOfLine policy table p with
    | .error _ => none
    | .ok w => w)

/-- The assembler under a policy (R100, R109): every error is reported, and with any error there is no image (D17). -/
def assembleUnder (policy : UnknownRegPolicy) (source : List Text) : Except (List AsmReport) (List Word) :=
  let ps := placeLines 1 0 source
  let table := labelTable ps
  match reportsOf policy table ps with
  | [] => .ok (wordsOf policy table ps)
  | r :: rs => .error (r :: rs)

/-- The assembler of this hardware (R105, D18). -/
def assemble (source : List Text) : Except (List AsmReport) (List Word) := assembleUnder asmUnknownReg source

end Sys2Proof.Machine
end

