-- ==== Sys2Proof/Machine/Loader.lean ====
section
/-! DEFINITION. Loading the memories before a run (spec/70_reset_and_hazards.md R271, R283) and the persisted image format
(R272). -/

namespace Sys2Proof.Machine

/-- Why the loader refuses (R271, R272, R283); no run starts. -/
inductive LoadError where
  /-- More than 1024 words, or more than 4096 bytes (D15, R283). -/
  | tooLarge
  /-- A line that is not exactly eight characters `0` or `1` (R272, D25). -/
  | malformedLine
  /-- An instruction image whose lines are no whole number of words (DESIGN CHOICE, safe, log 17). -/
  | partialWord
  /-- A load after the first step (R283). -/
  | afterFirstStep
deriving DecidableEq, Repr

/-- The bytes of the words, big-endian, word `k` at `4k` (R271). -/
def bytesOfWords (ws : List Word) : List Byte := ws.flatMap bytesOfWord

/-- `load_imem(words)`: the words from address 0, 0 after them; more than the capacity is refused (R271, D14, D15). -/
def loadImem (ws : List Word) : Except LoadError Memory :=
  if 4 * ws.length ≤ imemBytes then .ok (Memory.ofBytesAt 0 (bytesOfWords ws)) else .error .tooLarge

/-- `load_dmem(bytes)`: the bytes from address 0, 0 after them (R283). -/
def loadDmem (bs : List Byte) : Except LoadError Memory :=
  if bs.length ≤ dmemBytes then .ok (Memory.ofBytesAt 0 bs) else .error .tooLarge

/-! ### The persisted format: one byte a line, eight characters `0` or `1` (R272). An image may have fewer lines than the memory has
bytes; the bytes it does not give are 0 (DESIGN CHOICE, unsafe, log 23). More lines than 4096 are refused. -/

/-- The bit of a character `0` or `1`. -/
def bitOfChar (c : Char) : Option Bool :=
  if c = '0' then some false else if c = '1' then some true else none

/-- The bits of a line, first character first. -/
def bitsOfLine : List Char → Option (List Bool)
  | [] => some []
  | c :: rest =>
    match bitOfChar c, bitsOfLine rest with
    | some b, some bs => some (b :: bs)
    | _, _ => none

/-- The number of a list of bits, most significant first. -/
def natOfBits (bs : List Bool) : Nat := bs.foldl (fun n b => 2 * n + b.toNat) 0

/-- The byte of one line (R272). -/
def byteOfLine (line : List Char) : Option Byte :=
  if line.length = 8 then (bitsOfLine line).map (fun bs => BitVec.ofNat 8 (natOfBits bs)) else none

/-- The bytes of an image's lines, however many; one malformed line refuses the image (R272, D25; log 23). -/
def bytesOfLines : List (List Char) → Except LoadError (List Byte)
  | [] => .ok []
  | line :: rest =>
    match byteOfLine line, bytesOfLines rest with
    | some b, .ok bs => .ok (b :: bs)
    | _, _ => .error .malformedLine

/-- The words of an instruction image's bytes, four to a word, big-endian (R272). -/
def wordsOfBytes : List Byte → Except LoadError (List Word)
  | [] => .ok []
  | b0 :: b1 :: b2 :: b3 :: rest =>
    match wordsOfBytes rest with
    | .ok ws => .ok (wordOfBytes b0 b1 b2 b3 :: ws)
    | .error e => .error e
  | _ => .error .partialWord

/-- The words of a persisted instruction image. -/
def wordsOfLines (lines : List (List Char)) : Except LoadError (List Word) :=
  match bytesOfLines lines with
  | .ok bs => wordsOfBytes bs
  | .error e => .error e

/-- The line of one byte, most significant bit first (R272). -/
def lineOfByte (b : Byte) : List Char :=
  [b.getLsbD 7, b.getLsbD 6, b.getLsbD 5, b.getLsbD 4, b.getLsbD 3, b.getLsbD 2, b.getLsbD 1, b.getLsbD 0].map
    (fun bit => if bit then '1' else '0')

/-- The persisted image of an instruction list (R272). -/
def linesOfWords (ws : List Word) : List (List Char) := (bytesOfWords ws).map lineOfByte

/-- The persisted image of the first `size` bytes of a memory, one line each (R272). -/
def linesOfMemory (size : Nat) (m : Memory) : List (List Char) := (List.range size).map (fun a => lineOfByte (m.read a))

/-- The instruction memory of a persisted image: its lines, four to a word, then the capacity (R272, R271). -/
def loadImemImage (lines : List (List Char)) : Except LoadError Memory :=
  match wordsOfLines lines with
  | .ok ws => loadImem ws
  | .error e => .error e

/-- The data memory of a persisted image: its lines, then the capacity (R272, R283). -/
def loadDmemImage (lines : List (List Char)) : Except LoadError Memory :=
  match bytesOfLines lines with
  | .ok bs => loadDmem bs
  | .error e => .error e

end Sys2Proof.Machine
end

