-- ==== Sys2Proof/Machine/HostOps.lean ====
section
/-! DEFINITION. The host's operations between cycles (spec/70_reset_and_hazards.md R270 to R284). They are no part of the step. -/

namespace Sys2Proof.Machine

/-- The state after a step; a step that does not answer a next state (none does) leaves it. -/
def stepState (s : State) : State :=
  match step s with
  | .next t => t
  | .fault _ => s
  | .refused _ => s

/-- `run_until_halt(bound)`: the state and the cycles done; reaching the bound is no halt (R282, R283). -/
def runUntilHalt : Nat → State → State × Nat
  | 0, s => (s, 0)
  | bound + 1, s =>
    if s.status = .running then
      ((runUntilHalt bound (stepState s)).1, (runUntilHalt bound (stepState s)).2 + 1)
    else (s, 0)

/-- The host's side of a machine: the state, whether a step has been made since reset, and the number of the launch (log 13). -/
structure Session where
  machine : State
  started : Bool
  launch : Nat
deriving DecidableEq, Repr

/-- The machine right after its first reset. -/
def Session.initial : Session := ⟨State.reset, false, 0⟩

/-- `reset()` (R270, R36): every register and the status to the reset values of a new launch; the memories keep the loaded
images, which a later load replaces (DEDUCED, unsafe, log 12). -/
def resetSession (h : Session) : Session where
  machine := { State.resetOfLaunch (h.launch + 1) with imem := h.machine.imem, dmem := h.machine.dmem }
  started := false
  launch := h.launch + 1

/-- What the host reads of the state (R281, R283). -/
structure StateView where
  x : Vector Word 32
  pc : Word
  hi : Word
  lo : Word
  status : Status
deriving DecidableEq, Repr

/-- `read_state()` (R283). -/
def viewState (s : State) : StateView := ⟨Vector.ofFn (fun r => readReg s r), s.pc, s.hi, s.lo, s.status⟩

/-- The host's calls (R283). -/
inductive HostCall where
  | reset
  | loadImem (words : List Word)
  | loadDmem (bytes : List Byte)
  | step
  | runUntilHalt (bound : Nat)
  | readState
  | readDmem (addr : Word)
deriving DecidableEq, Repr

/-- What the host gets back (R283). -/
inductive HostReply where
  | nothing
  | ok
  | refused (why : LoadError)
  | status (now : Status)
  | ran (now : Status) (cycles : Nat)
  | view (v : StateView)
  | word (w : Word)
  | dataError (e : DataError)
deriving DecidableEq, Repr

/-- One operation of the table of R283. A load is refused after the first step, and a `read_dmem` that fails R60's checks
changes nothing (D32). A refused load leaves the session as it was and bars no later call: R271 says that no run starts, and
the table of R283 does not say what a `step()` the host makes all the same does; here it runs the image loaded before, or the
empty one (DESIGN CHOICE, unsafe, log 22). -/
def hostCall (h : Session) : HostCall → Session × HostReply
  | .reset => (resetSession h, .nothing)
  | .loadImem words =>
    if h.started then (h, .refused .afterFirstStep)
    else
      match loadImem words with
      | .ok m => ({ h with machine := { h.machine with imem := m } }, .ok)
      | .error e => (h, .refused e)
  | .loadDmem bytes =>
    if h.started then (h, .refused .afterFirstStep)
    else
      match loadDmem bytes with
      | .ok m => ({ h with machine := { h.machine with dmem := m } }, .ok)
      | .error e => (h, .refused e)
  | .step => ({ h with machine := stepState h.machine, started := true }, .status (stepState h.machine).status)
  | .runUntilHalt bound =>
    let r := runUntilHalt bound h.machine
    ({ h with machine := r.1, started := h.started || decide (0 < r.2) }, .ran r.1.status r.2)
  | .readState => (h, .view (viewState h.machine))
  | .readDmem addr =>
    match dataRead h.machine.dmem addr with
    | .ok w => (h, .word w)
    | .error e => (h, .dataError e)

/-! ### Persisted images at the host's boundary (R272) -/

/-- `load_imem` from a persisted image: its words, or the refusal of the image, which leaves the session as it was (log 22). A
malformed image is refused before R283's conditions are looked at (DESIGN CHOICE, safe, log 23). -/
def hostLoadImemImage (h : Session) (lines : List Text) : Session × HostReply :=
  match wordsOfLines lines with
  | .ok words => hostCall h (.loadImem words)
  | .error e => (h, .refused e)

/-- `load_dmem` from a persisted image, as `hostLoadImemImage`. -/
def hostLoadDmemImage (h : Session) (lines : List Text) : Session × HostReply :=
  match bytesOfLines lines with
  | .ok bytes => hostCall h (.loadDmem bytes)
  | .error e => (h, .refused e)

/-- The persisted image of the data memory, a line for each of its 4096 bytes (R272, R281). -/
def persistDmem (h : Session) : List Text := linesOfMemory dmemBytes h.machine.dmem

/-- The persisted image of the instruction memory, a line for each of its 4096 bytes (R272). -/
def persistImem (h : Session) : List Text := linesOfMemory imemBytes h.machine.imem

/-! ### Boot and exit -/

/-- Why a run does not start (R271, R273). -/
inductive BootFailure where
  | assembly (reports : List AsmReport)
  | load (why : LoadError)
deriving DecidableEq, Repr

/-- Steps 2 and 3 of R273: reset, then the two images; where the loader refused either, no run starts (R271, R272). -/
def startRun (h : Session) : Except LoadError Memory → Except LoadError Memory → Except BootFailure Session
  | .ok im, .ok dm => .ok { resetSession h with machine := { (resetSession h).machine with imem := im, dmem := dm } }
  | .error why, _ => .error (.load why)
  | .ok _, .error why => .error (.load why)

/-- R273: assemble, reset, load the instruction image and the data image. -/
def boot (h : Session) (source : List Text) (dmemInit : List Byte) : Except BootFailure Session :=
  match assemble source with
  | .error reports => .error (.assembly reports)
  | .ok words => startRun h (loadImem words) (loadDmem dmemInit)

/-- R273 from step 2 on, over the persisted images of R272 in place of a source. -/
def bootImages (h : Session) (imemLines dmemLines : List Text) : Except BootFailure Session :=
  startRun h (loadImemImage imemLines) (loadDmemImage dmemLines)

/-- The exit status (R284). -/
inductive ExitStatus where
  | success
  | executionFault
  | assemblyFailure
  /-- The loader refused the image; the spec names no status for it beyond "no run starts" (R271; log 14). -/
  | loadFailure
deriving DecidableEq, Repr

/-- Success, or non-zero (R284). -/
def ExitStatus.isSuccess : ExitStatus → Bool
  | .success => true
  | .executionFault => false
  | .assemblyFailure => false
  | .loadFailure => false

/-- The exit status of a run's end; a run that is still RUNNING has none (R280, R282). -/
def exitOfStatus : Status → Option ExitStatus
  | .running => none
  | .halted => some .success
  | .faulted _ _ _ => some .executionFault

/-- One row of the register dump: "index, symbolic name, and current 32-character binary value" (R281). The value is the word;
its rendering as text is out of scope (R4). -/
structure DumpRow where
  index : Reg
  name : Text
  value : Word
deriving DecidableEq, Repr

/-- The register dump: one row per register, in index order (R273 step 5, R281). -/
def registerDump (s : State) : List DumpRow := registerTable.map (fun e => ⟨e.2, e.1, readReg s e.2⟩)

/-- What a drive ends in (R273). -/
inductive DriveEnd where
  /-- Assembly failed or the loader refused; no run started, so there is no dump. -/
  | noRun (why : BootFailure)
  /-- The bound was reached with the machine RUNNING; the run has not ended (R282). -/
  | paused (session : Session)
  /-- The run ended: its exit status, its register dump, and the session, whose machine is the end state (R280). -/
  | ended (exit : ExitStatus) (dump : List DumpRow) (session : Session)
deriving DecidableEq, Repr

/-- The exit status of a run that did not start (R284; log 14). -/
def exitOfFailure : BootFailure → ExitStatus
  | .assembly _ => .assemblyFailure
  | .load _ => .loadFailure

/-- The exit status of a drive; a paused run has none (R282, R284). -/
def DriveEnd.exit : DriveEnd → Option ExitStatus
  | .noRun why => some (exitOfFailure why)
  | .paused _ => none
  | .ended exit _ _ => some exit

/-- Step 5 of R273: once the run has ended, the register dump and the exit status. -/
def report (h : Session) : DriveEnd :=
  match exitOfStatus h.machine.status with
  | none => .paused h
  | some exit => .ended exit (registerDump h.machine) h

/-- Steps 4 and 5 of R273 after a boot: step up to `bound` times, report; a failed boot is no run. -/
def driveFrom (booted : Except BootFailure Session) (bound : Nat) : DriveEnd :=
  match booted with
  | .error why => .noRun why
  | .ok h' => report (hostCall h' (.runUntilHalt bound)).1

/-- The whole drive of R273: boot, step up to `bound` times, report. -/
def drive (h : Session) (source : List Text) (dmemInit : List Byte) (bound : Nat) : DriveEnd :=
  driveFrom (boot h source dmemInit) bound

/-- The drive over persisted images (R272, R273). -/
def driveImages (h : Session) (imemLines dmemLines : List Text) (bound : Nat) : DriveEnd :=
  driveFrom (bootImages h imemLines dmemLines) bound

end Sys2Proof.Machine
end

