-- ==== Sys2Proof/Safety.lean ====
section
/-! DEFINITION. What counts as a legal state and a safe run, and the words claims are made in: the machine's invariant, runs of
many steps, and the frames of an instruction. -/

namespace Sys2Proof.Machine

/-! ### Runs -/

/-- The state after `n` calls of `step()`. -/
def stateAfter : Nat → State → State
  | 0, s => s
  | n + 1, s => stateAfter n (stepState s)

/-- The run has ended normally (R280). -/
def endedNormally (s : State) : Prop := s.status = .halted

/-- No fault has stopped the engine (spec/93_implementation_defined.md section 3). -/
def notFaulted (s : State) : Prop := ∀ cause pc word, s.status ≠ .faulted cause pc word

/-! ### The invariant -/

/-- The run status agrees with what stands at `pc`: HALTED where the sentinel is fetched, FAULTED with the cause, the pc and the
word that fetch and decode report there (R230, R241, R246, R280). -/
def statusExplained (s : State) : Prop :=
  match s.status with
  | .running => True
  | .halted => fetchDecode fetchOorPolicy s = .ok .haltSentinel
  | .faulted cause pc word => pc = s.pc ∧ fetchDecode fetchOorPolicy s = .error (cause, word)

/-- What holds of every state of a run: register 0 holds 0 (R21), `pc` is a multiple of 4 (R25, R28), both memories are in
canonical form and list no cell outside their 4096 bytes (R50), and the run status is explained by the state. -/
structure State.Inv (s : State) : Prop where
  zeroReg : s.gpr[0] = 0#32
  pcAligned : aligned s.pc = true
  imemWf : s.imem.wf = true
  imemBelow : s.imem.below imemBytes = true
  dmemWf : s.dmem.wf = true
  dmemBelow : s.dmem.below dmemBytes = true
  status : statusExplained s

/-- What holds of every session: the machine's invariant, and a machine that has not stepped since reset is RUNNING, so that a
load never changes what an ended run stopped on (R283). -/
structure Session.Inv (h : Session) : Prop where
  machine : h.machine.Inv
  fresh : h.started = false → h.machine.status = .running

/-! ### Frames -/

/-- Every general register reads as before. -/
def regsSame (s t : State) : Prop := ∀ r : Reg, readReg t r = readReg s r

/-- Every general register but `rd` reads as before. -/
def regsSameBut (rd : Reg) (s t : State) : Prop := ∀ r : Reg, r ≠ rd → readReg t r = readReg s r

/-- HI and LO are as before. -/
def hiLoSame (s t : State) : Prop := t.hi = s.hi ∧ t.lo = s.lo

/-- Every byte of both memories reads as before. -/
def memoriesSame (s t : State) : Prop := ∀ a : Nat, t.imem.read a = s.imem.read a ∧ t.dmem.read a = s.dmem.read a

/-- Everything but the run status is as before. -/
def onlyStatusChanges (s t : State) : Prop :=
  regsSame s t ∧ t.pc = s.pc ∧ hiLoSame s t ∧ memoriesSame s t

end Sys2Proof.Machine
end

