-- ==== Sys2Proof/Certificates/Slice0/Obligations.lean ====
section
/-! DEFINITION. The statements for the provers. Each docstring names the rule of spec/ it rests on. -/

open Sys2Proof Sys2Proof.Machine

/-! ### Encoding -/

/-- Words written out from the spec's tables decode to what they stand for (spec/95_test_vectors.md sections 1, 2.1, 2.2, 2.4). -/
def Obligations.DecodesWordsOfTheSpec : Prop :=
  decodeWord 0x01095020#32 = .ok (.add 10 8 9 0) ∧
  decodeWord 0x01408020#32 = .ok (.add 16 10 0 0) ∧
  decodeWord 0x000007E0#32 = .ok (.add 0 0 0 31) ∧
  decodeWord 0x00850018#32 = .ok (.mult 4 5 0 0) ∧
  decodeWord 0x0085F818#32 = .ok (.mult 4 5 31 0) ∧
  decodeWord 0x00001012#32 = .ok (.mflo 2 0 0 0) ∧
  decodeWord 0x03FF1012#32 = .ok (.mflo 2 31 31 0) ∧
  decodeWord 0x00000000#32 = .ok .haltSentinel ∧
  decodeWord 0x2008FFFF#32 = .ok (.addi 8 0 (-1)) ∧
  decodeWord 0x1140FFFD#32 = .ok (.beq 10 0 (-3)) ∧
  decodeWord 0x08000010#32 = .ok (.j 16)

/-- R86: encoding followed by field extraction gives every field of every layout back, and the sign-extended immediate is the
value encoded. -/
def Obligations.FieldsOfComposedWords : Prop :=
  (∀ (rs rt rd shamt : BitVec 5) (funct : BitVec 6),
    opcodeOf (encR rs rt rd shamt funct) = opcRtype ∧ rsOf (encR rs rt rd shamt funct) = rs ∧
    rtOf (encR rs rt rd shamt funct) = rt ∧ rdOf (encR rs rt rd shamt funct) = rd ∧
    shamtOf (encR rs rt rd shamt funct) = shamt ∧ functOf (encR rs rt rd shamt funct) = funct) ∧
  (∀ (op : BitVec 6) (rs rt : BitVec 5) (imm : BitVec 16),
    opcodeOf (encI op rs rt imm) = op ∧ rsOf (encI op rs rt imm) = rs ∧ rtOf (encI op rs rt imm) = rt ∧
    immOf (encI op rs rt imm) = imm) ∧
  (∀ (op : BitVec 6) (target : BitVec 26), opcodeOf (encJ op target) = op ∧ targetOf (encJ op target) = target) ∧
  (∀ (op : BitVec 6) (rs rt : BitVec 5) (v : Int), -32768 ≤ v → v ≤ 32767 →
    signExtend32 (immOf (encI op rs rt (immField v))) = BitVec.ofInt 32 v)

/-- Decode of encode, through the bytes as memory holds them, for every instruction and every operand its encoding admits:
the instruction itself, except the two assembler names, whose words are another instruction's (R86, R110 to R117, R171, R231). -/
def Obligations.DecodeOfEncode : Prop :=
  ∀ (i : Instr) (w : Word) (rest : List Byte), encode i = some w →
    decodeBytes (bytesOfWord w ++ rest) = .ok (i.canonical, rest)

/-- Encode of decode: a decoded instruction is well-formed, is its own canonical form, and encodes to the very word, unused
fields included (R84, R85, R94). -/
def Obligations.EncodeOfDecode : Prop :=
  ∀ (w : Word) (i : Instr), decodeWord w = .ok i → i.wellFormed = true ∧ i.canonical = i ∧ encode i = some w

/-- R92: the words that are illegal, how many opcodes and functs they take, what executing one raises, and that the all-zero
word is none of them. -/
def Obligations.IllegalWordsRaiseTheirFault : Prop :=
  (∀ w : Word, decodeWord w = .error .illegalOpcode ↔
    opcodeOf w ≠ opcRtype ∧ opcodeOf w ≠ opcAddi ∧ opcodeOf w ≠ opcBeq ∧ opcodeOf w ≠ opcJ) ∧
  (∀ w : Word, decodeWord w = .error .illegalFunct ↔
    w ≠ 0#32 ∧ opcodeOf w = opcRtype ∧ functOf w ≠ functAdd ∧ functOf w ≠ functMult ∧ functOf w ≠ functMflo) ∧
  ((List.range 64).filter fun n => BitVec.ofNat 6 n ∉ [opcRtype, opcAddi, opcBeq, opcJ]).length = 60 ∧
  ((List.range 64).filter fun n => BitVec.ofNat 6 n ∉ [functAdd, functMult, functMflo]).length = 61 ∧
  (∀ (s : State) (w : Word), s.status = .running → ifetch fetchOorPolicy s.imem s.pc = .ok w →
    (decodeWord w = .error .illegalOpcode →
      step s = .next { s with status := .faulted .illegalOpcode s.pc (some w) }) ∧
    (decodeWord w = .error .illegalFunct →
      step s = .next { s with status := .faulted .illegalFunct s.pc (some w) }) ∧
    (w = 0#32 → step s = .next { s with status := .halted }))

/-- No word matches two rows of the opcode table that are different instructions, and the decoder's instruction is that of the
row the word matches (spec/opcode_table.json; R90, R91). -/
def Obligations.DecoderFollowsTheTable : Prop :=
  ∀ w : Word,
    (∀ r ∈ coreRows, ∀ r' ∈ coreRows, r.hits w = true → r'.hits w = true → r = r') ∧
    (∀ i : Instr, decodeWord w = .ok i → ∃ r ∈ coreRows, r.hits w = true ∧ r.mnemonic = i.mnemonic) ∧
    (∀ r ∈ coreRows, r.hits w = true → ∃ i : Instr, decodeWord w = .ok i ∧ r.mnemonic = i.mnemonic)

/-- R94: two words that differ only in fields the first one's instruction does not use decode both, and run alike. -/
def Obligations.UnusedFieldsDoNotMatter : Prop :=
  ∀ (w w' : Word) (i : Instr), decodeWord w = .ok i → w &&& usedMask i = w' &&& usedMask i →
    ∃ i' : Instr, decodeWord w' = .ok i' ∧ ∀ s : State, exec i' s = exec i s

/-! ### Reset and the invariant -/

/-- R36 with the model's reading of its OPEN values (log 3): after the reset of any launch every register reads 0, pc is 0, HI and LO
are the launch's free values, both memories read 0 (nothing loaded, log 4), and the status is RUNNING. -/
def Obligations.ResetLeavesTheSpecsValues : Prop :=
  (∀ n : Nat, (∀ r : Reg, readReg (State.resetOfLaunch n) r = 0#32) ∧ (State.resetOfLaunch n).pc = 0#32 ∧
    (State.resetOfLaunch n).hi = Config.hiReset n ∧ (State.resetOfLaunch n).lo = Config.loReset n ∧
    (∀ a : Nat, (State.resetOfLaunch n).imem.read a = 0#8 ∧ (State.resetOfLaunch n).dmem.read a = 0#8) ∧
    (State.resetOfLaunch n).status = .running) ∧
  State.reset = State.resetOfLaunch 0

/-- The invariant holds at the reset of every launch. -/
def Obligations.ResetMeetsTheInvariant : Prop := ∀ n : Nat, (State.resetOfLaunch n).Inv

/-- Every step from every state that meets the invariant gives a state that meets it: register 0 holds 0 (R21), pc is a multiple
of 4 (R28), both memories stay canonical and inside their 4096 bytes (R50), and the run status is explained by what stands at
pc (R230, R246, R280). -/
def Obligations.StepKeepsTheInvariant : Prop :=
  ∀ s t : State, s.Inv → step s = .next t → t.Inv

/-- A boot succeeds exactly when the source assembles and both images load, and then starts from the reset of the next launch with
the memories those loads give; so every booted session meets the invariant, RUNNING at the reset vector (R270, R271, R273). -/
def Obligations.BootMeetsTheInvariant : Prop :=
  (∀ (h h' : Session) (source : List Text) (dmemInit : List Byte), boot h source dmemInit = .ok h' ↔
    ∃ (ws : List Word) (im dm : Memory), assemble source = .ok ws ∧ loadImem ws = .ok im ∧ loadDmem dmemInit = .ok dm ∧
      h' = ⟨{ State.resetOfLaunch (h.launch + 1) with imem := im, dmem := dm }, false, h.launch + 1⟩) ∧
  ∀ (h h' : Session) (source : List Text) (dmemInit : List Byte), boot h source dmemInit = .ok h' →
    h'.Inv ∧ h'.machine.status = .running ∧ h'.machine.pc = 0#32 ∧ h'.started = false

/-- Every host operation keeps the session's invariant (R283; the session and what counts as its first step are the model's choice,
log 13, 14). -/
def Obligations.HostCallsKeepTheInvariant : Prop :=
  ∀ (h : Session) (c : HostCall), h.Inv → (hostCall h c).1.Inv

/-! ### The cycle -/

/-- When the four bytes at an aligned pc inside the instruction memory decode to an instruction, a step of a running machine is the
instruction's meaning on that very state (R152, R26). -/
def Obligations.StepRunsTheDecodedInstruction : Prop :=
  ∀ (s : State) (i : Instr) (rest : List Byte), s.status = .running → s.pc.toNat % 4 = 0 → s.pc.toNat < 4096 →
    decodeBytes [s.imem.read s.pc.toNat, s.imem.read (s.pc.toNat + 1), s.imem.read (s.pc.toNat + 2),
      s.imem.read (s.pc.toNat + 3)] = .ok (i, rest) →
    step s = exec i s

/-- The machine of the per-instruction meanings is the machine of the datapath: R152's cycle over the control table, the ALU, the
dispatch and the PC multiplexer, for every policy, every state and every value of the don't-care signals. -/
def Obligations.StepIsTheDatapathCycle : Prop :=
  ∀ (x : DontCare) (policy : FetchPolicy) (s : State), stepUnder policy s = .next (datapathCycle x policy s)

/-- R132: the don't-care signals influence nothing: no state, no fault. -/
def Obligations.DontCaresAreUnobservable : Prop :=
  ∀ (x y : DontCare) (policy : FetchPolicy) (s : State), datapathCycle x policy s = datapathCycle y policy s

/-- R245: what a step of a running machine ends in, in the order of the checks; no fault comes after decode. -/
def Obligations.FaultsComeInOrder : Prop :=
  ∀ s : State, s.status = .running → ∃ t : State, step s = .next t ∧ t.status =
    if s.pc.toNat % 4 ≠ 0 then .faulted .fetchMisaligned s.pc none
    else if 4096 ≤ s.pc.toNat then .faulted .fetchOutOfRange s.pc none
    else if s.imem.readWord s.pc.toNat = 0#32 then .halted
    else if opcodeOf (s.imem.readWord s.pc.toNat) ∉ [opcRtype, opcAddi, opcBeq, opcJ] then
      .faulted .illegalOpcode s.pc (some (s.imem.readWord s.pc.toNat))
    else if opcodeOf (s.imem.readWord s.pc.toNat) = opcRtype ∧
        functOf (s.imem.readWord s.pc.toNat) ∉ [functAdd, functMult, functMflo] then
      .faulted .illegalFunct s.pc (some (s.imem.readWord s.pc.toNat))
    else .running

/-- R246: a step that faults leaves exactly the state at the start of its cycle, with the status FAULTED at that pc. -/
def Obligations.FaultsArePrecise : Prop :=
  ∀ (s t : State) (cause : Fault) (pc : Word) (word : Option Word), s.status = .running → step s = .next t →
    t.status = .faulted cause pc word →
    pc = s.pc ∧ t = { s with status := .faulted cause pc word } ∧ regsSame s t ∧ t.pc = s.pc ∧ hiLoSame s t ∧
      memoriesSame s t

/-- HALTED and FAULTED are final: no number of further steps changes anything (R34, R152, R247, R258). -/
def Obligations.EndedRunsStayAsTheyAre : Prop :=
  ∀ (s : State) (n : Nat), s.status ≠ .running → step s = .next s ∧ stateAfter n s = s

/-- A fetch beyond the capacity: the fault under the policy of this hardware, the halt of the reference design under the other one
(R56, conflict C2). -/
def Obligations.FetchBeyondCapacityUnderEachPolicy : Prop :=
  ∀ s : State, s.status = .running → s.pc.toNat % 4 = 0 → 4096 ≤ s.pc.toNat →
    stepUnder .fault s = .next { s with status := .faulted .fetchOutOfRange s.pc none } ∧
    stepUnder .zero s = .next { s with status := .halted } ∧
    step s = stepUnder .fault s

/-- No instruction reads or writes the data memory or writes the instruction memory, in any number of steps; the control table has
no memory access, and no step raises a data fault (R57, R61, R65, R68). -/
def Obligations.NoInstructionTouchesAMemory : Prop :=
  (∀ (i : Instr) (s t : State), exec i s = .next t → t.imem = s.imem ∧ t.dmem = s.dmem) ∧
  (∀ (n : Nat) (s : State), (stateAfter n s).imem = s.imem ∧ (stateAfter n s).dmem = s.dmem) ∧
  (∀ (op : BitVec 6) (c : ControlRow), controlRow op = some c → c.memRead = false ∧ c.memWrite = false) ∧
  (∀ (s t : State) (m : Memory), step s = .next t → step { s with dmem := m } = .next { t with dmem := m }) ∧
  (∀ (s t : State) (cause : Fault) (pc : Word) (word : Option Word), s.status = .running → step s = .next t →
    t.status = .faulted cause pc word → cause ≠ .dataMisaligned ∧ cause ≠ .dataOutOfRange)

/-- HI and LO are written by `mult` alone (R29, R193). -/
def Obligations.OnlyMultWritesHiLo : Prop :=
  ∀ (s t : State), step s = .next t → (t.hi ≠ s.hi ∨ t.lo ≠ s.lo) →
    ∃ (rs rt : Reg) (rdField shamt : BitVec 5), fetchDecode fetchOorPolicy s = .ok (.mult rs rt rdField shamt)

/-- No run can tell one value of HI from another: after any number of steps everything but HI is the same (R29, R193). -/
def Obligations.HiIsSeenByTheHostAlone : Prop :=
  ∀ (n : Nat) (s : State) (v : Word), ∃ v' : Word, stateAfter n { s with hi := v } = { stateAfter n s with hi := v' }

/-- A step that does not run `mflo` behaves alike for every value of LO (R29, R192). -/
def Obligations.LoIsReadByMfloAlone : Prop :=
  ∀ (s t : State) (v : Word), step s = .next t →
    (∀ (rd : Reg) (a b c : BitVec 5), fetchDecode fetchOorPolicy s ≠ .ok (.mflo rd a b c)) →
    ∃ v' : Word, step { s with lo := v } = .next { t with lo := v' }

/-- At most one general register is written per cycle, and never register 0 (R22). -/
def Obligations.OneRegisterPerCycle : Prop :=
  ∀ s t : State, step s = .next t → (∃ rd : Reg, regsSameBut rd s t) ∧ t.gpr[0] = s.gpr[0]

/-- R28: each next-pc candidate is a multiple of 4 when pc is, so a run from an aligned pc stays aligned and never meets the fetch
alignment fault. -/
def Obligations.PcStaysAligned : Prop :=
  (∀ (pc : Word) (imm : BitVec 16) (target : BitVec 26), aligned pc = true →
    aligned (seqPc pc) = true ∧ aligned (branchTarget pc imm) = true ∧ aligned (jumpTarget pc target) = true) ∧
  (∀ (n : Nat) (s : State), aligned s.pc = true → aligned (stateAfter n s).pc = true) ∧
  (∀ (n : Nat) (s : State) (pc : Word) (word : Option Word), s.status = .running → aligned s.pc = true →
    (stateAfter n s).status ≠ .faulted .fetchMisaligned pc word) ∧
  (∀ n : Nat, aligned (State.resetOfLaunch n).pc = true)

/-! ### The instructions: result, completion and frame -/

/-- `add rd, rs, rt` (R170): the sum mod 2^32 in rd, discarded for register 0; everything else as before, pc + 4. -/
def Obligations.AddWritesTheSum : Prop :=
  ∀ (rd rs rt : Reg) (shamt : BitVec 5) (s : State), ∃ t : State, exec (.add rd rs rt shamt) s = .next t ∧
    readReg t rd = (if rd = 0 then 0#32 else readReg s rs + readReg s rt) ∧ regsSameBut rd s t ∧
    t.pc = s.pc + 4#32 ∧ hiLoSame s t ∧ memoriesSame s t ∧ t.status = s.status

/-- `move rd, rs` (R171): a copy in rd, discarded for register 0; it is `add` with rt = 0. -/
def Obligations.MoveCopies : Prop :=
  ∀ (rd rs : Reg) (shamt : BitVec 5) (s : State), ∃ t : State, exec (.move rd rs shamt) s = .next t ∧
    readReg t rd = (if rd = 0 then 0#32 else readReg s rs) ∧ regsSameBut rd s t ∧
    t.pc = s.pc + 4#32 ∧ hiLoSame s t ∧ memoriesSame s t ∧ t.status = s.status ∧
    exec (.move rd rs shamt) s = exec (.add rd rs 0 shamt) s

/-- `addi rt, rs, imm` (R172), for every immediate the encoding admits: the sum with the immediate's value mod 2^32 in rt. -/
def Obligations.AddiAddsTheImmediate : Prop :=
  ∀ (rt rs : Reg) (imm : Int) (s : State), -32768 ≤ imm → imm ≤ 32767 → ∃ t : State, exec (.addi rt rs imm) s = .next t ∧
    readReg t rt = (if rt = 0 then 0#32 else readReg s rs + BitVec.ofInt 32 imm) ∧ regsSameBut rt s t ∧
    t.pc = s.pc + 4#32 ∧ hiLoSame s t ∧ memoriesSame s t ∧ t.status = s.status

/-- `mult rs, rt` (R190, R191): HI and LO together hold the exact signed product; no general register is written. -/
def Obligations.MultLeavesTheProduct : Prop :=
  ∀ (rs rt : Reg) (rdField shamt : BitVec 5) (s : State), ∃ t : State, exec (.mult rs rt rdField shamt) s = .next t ∧
    (t.hi ++ t.lo).toInt = (readReg s rs).toInt * (readReg s rt).toInt ∧ regsSame s t ∧
    t.pc = s.pc + 4#32 ∧ memoriesSame s t ∧ t.status = s.status

/-- `mflo rd` (R192): LO in rd, discarded for register 0; HI and LO unchanged. -/
def Obligations.MfloCopiesLo : Prop :=
  ∀ (rd : Reg) (rsField rtField shamt : BitVec 5) (s : State), ∃ t : State,
    exec (.mflo rd rsField rtField shamt) s = .next t ∧
    readReg t rd = (if rd = 0 then 0#32 else s.lo) ∧ regsSameBut rd s t ∧
    t.pc = s.pc + 4#32 ∧ hiLoSame s t ∧ memoriesSame s t ∧ t.status = s.status

/-- `beq rs, rt, off` (R210, R211), for every offset the encoding admits: to pc + 4 + 4*off when the registers are equal as 32-bit
patterns, else to pc + 4; nothing else changes. -/
def Obligations.BeqBranchesWhenEqual : Prop :=
  ∀ (rs rt : Reg) (off : Int) (s : State), -32768 ≤ off → off ≤ 32767 → ∃ t : State, exec (.beq rs rt off) s = .next t ∧
    t.pc = (if readReg s rs = readReg s rt then s.pc + 4#32 + BitVec.ofInt 32 (4 * off) else s.pc + 4#32) ∧
    regsSame s t ∧ hiLoSame s t ∧ memoriesSame s t ∧ t.status = s.status

/-- `j target` (R212), for every target the encoding admits: the top four bits of its own pc, then the target word. -/
def Obligations.JumpGoesToItsTarget : Prop :=
  ∀ (target : Nat) (s : State), target < 2 ^ 26 → ∃ t : State, exec (.j target) s = .next t ∧
    t.pc.toNat = s.pc.toNat / 2 ^ 28 * 2 ^ 28 + 4 * target ∧
    regsSame s t ∧ hiLoSame s t ∧ memoriesSame s t ∧ t.status = s.status

/-- The sentinel (R230) and, with `FUNCT_NOP = 0` (log 2), the assembler's `nop` (R231) halt: HALTED, everything else as before, pc
too. -/
def Obligations.SentinelAndNopHalt : Prop :=
  ∀ (i : Instr) (s : State), i = .haltSentinel ∨ i = .nop → ∃ t : State, exec i s = .next t ∧
    t.status = .halted ∧ onlyStatusChanges s t

/-- R231 for every nop-code that is no funct of another instruction: the sentinel's halt for 0, the illegal funct with its word for
any other; it never advances pc. The engine does the same with the word itself. -/
def Obligations.NopUnderEachNopCode : Prop :=
  ∀ (nopCode : BitVec 6) (s : State),
    nopUnder nopCode s =
      (if nopCode = 0#6 then { s with status := .halted }
       else { s with status := .faulted .illegalFunct s.pc (some (encR 0#5 0#5 0#5 0#5 nopCode)) }) ∧
    (nopUnder nopCode s).pc = s.pc ∧
    (nopCode ≠ functAdd → nopCode ≠ functMult → nopCode ≠ functMflo → s.status = .running →
      ifetch fetchOorPolicy s.imem s.pc = .ok (encR 0#5 0#5 0#5 0#5 nopCode) → step s = .next (nopUnder nopCode s))

/-- A `beq` that compares equal registers with offset −1, and a `j` to its own address, leave the state as it is: a hang the machine
keeps (R210, R212, R282). -/
def Obligations.SelfLoopsKeepTheState : Prop :=
  (∀ (r : Reg) (s : State), exec (.beq r r (-1)) s = .next s) ∧
  (∀ s : State, s.pc.toNat % 4 = 0 → exec (.j (s.pc.toNat % 2 ^ 28 / 4)) s = .next s)

/-! ### The units of the datapath -/

/-- R140: add and subtract wrap mod 2^32; any other class gives 0; the zero flag is set exactly when the result is 0. -/
def Obligations.AluComputesItsClasses : Prop :=
  ∀ a b : Word,
    (alu .add a b).1.toNat = (a.toNat + b.toNat) % 2 ^ 32 ∧
    (alu .sub a b).1.toNat = (2 ^ 32 - b.toNat + a.toNat) % 2 ^ 32 ∧
    (alu .rtype a b).1 = 0#32 ∧ (alu .unused a b).1 = 0#32 ∧
    ∀ op : AluOp, (alu op a b).2 = true ↔ (alu op a b).1 = 0#32

/-- R151: the zero flag of the subtraction is 1 exactly when the operands are the same 32-bit pattern. -/
def Obligations.ZeroFlagMeansEqual : Prop := ∀ a b : Word, (alu .sub a b).2 = true ↔ a = b

/-- R143: the 64-bit signed product is exact and splits into its halves; its magnitude is at most 2^62. -/
def Obligations.ProductIsExact : Prop :=
  ∀ a b : Word,
    ((mulUnit a b).1 ++ (mulUnit a b).2).toInt = a.toInt * b.toInt ∧
    (mulUnit a b).1 = (product a b).extractLsb' 32 32 ∧ (mulUnit a b).2 = (product a b).extractLsb' 0 32 ∧
    -(2 ^ 62) ≤ a.toInt * b.toInt ∧ a.toInt * b.toInt ≤ 2 ^ 62

/-- R150: the three candidates in numbers, their priority (jump, then taken branch, then sequential), and that the pc after the
cycle of any instruction but the sentinel is the candidate so selected (R152). Jump and Branch are written as the opcode tests
of R131's table (log 20), and the zero flag as the register equality the spec derives in R151. -/
def Obligations.PcUpdateSelectsByPriority : Prop :=
  (∀ (pc : Word) (imm : BitVec 16) (target : BitVec 26),
    (seqPc pc).toNat = (pc.toNat + 4) % 2 ^ 32 ∧
    ((branchTarget pc imm).toNat : Int) = ((pc.toNat : Int) + 4 + 4 * imm.toInt) % 2 ^ 32 ∧
    (jumpTarget pc target).toNat = pc.toNat / 2 ^ 28 * 2 ^ 28 + 4 * target.toNat) ∧
  (∀ (branch zero : Bool) (seq btgt jtgt : Word), selectPc true branch zero seq btgt jtgt = jtgt ∧
    selectPc false true true seq btgt jtgt = btgt ∧ selectPc false false zero seq btgt jtgt = seq ∧
    selectPc false branch false seq btgt jtgt = seq) ∧
  (∀ (s : State) (w : Word) (i : Instr), s.status = .running → ifetch fetchOorPolicy s.imem s.pc = .ok w →
    decodeWord w = .ok i → w ≠ 0#32 → ∃ t : State, step s = .next t ∧
      t.pc = selectPc (opcodeOf w == opcJ) (opcodeOf w == opcBeq)
        (readReg s (regOfBits (rsOf w)) == readReg s (regOfBits (rtOf w)))
        (seqPc s.pc) (branchTarget s.pc (immOf w)) (jumpTarget s.pc (targetOf w)))

/-- The bit rows of the control table (R131), `none` for an X; no other opcode has a row (R130). -/
def Obligations.ControlTableBits : Prop :=
  (controlRow opcRtype).map ControlRow.bits = some [some true, some false, some false, some true, some false, some false,
    some false, some true, some false, some false] ∧
  (controlRow opcAddi).map ControlRow.bits = some [some false, some true, some false, some true, some false, some false,
    some false, some false, some false, some false] ∧
  (controlRow opcBeq).map ControlRow.bits = some [none, some false, none, some false, some false, some false,
    some true, some false, some true, some false] ∧
  (controlRow opcJ).map ControlRow.bits = some [none, none, none, some false, some false, some false,
    some false, none, none, some true] ∧
  ∀ op : BitVec 6, controlRow op = none ↔ op ∉ [opcRtype, opcAddi, opcBeq, opcJ]

/-! ### Memories and the host's port -/

/-- R52: the word at an address is its four bytes, the first most significant, in either memory; a written word reads back and
lies in memory in that order. -/
def Obligations.WordsAreBigEndian : Prop :=
  ∀ (m : Memory) (a : Nat) (v : Word),
    (m.readWord a).extractLsb' 24 8 = m.read a ∧ (m.readWord a).extractLsb' 16 8 = m.read (a + 1) ∧
    (m.readWord a).extractLsb' 8 8 = m.read (a + 2) ∧ (m.readWord a).extractLsb' 0 8 = m.read (a + 3) ∧
    (m.wf = true → (m.writeWord a v).readWord a = v ∧ (m.writeWord a v).read a = v.extractLsb' 24 8 ∧
      (m.writeWord a v).read (a + 1) = v.extractLsb' 16 8 ∧ (m.writeWord a v).read (a + 2) = v.extractLsb' 8 8 ∧
      (m.writeWord a v).read (a + 3) = v.extractLsb' 0 8)

/-- R55: the fetch, its two checks in order, the two policies, and the big-endian word. -/
def Obligations.FetchReadsTheWordOrFaults : Prop :=
  ∀ (policy : FetchPolicy) (m : Memory) (a : Word), ifetch policy m a =
    if a.toNat % 4 ≠ 0 then .error .fetchMisaligned
    else if 4096 ≤ a.toNat then (if policy = .fault then .error .fetchOutOfRange else .ok 0#32)
    else .ok (m.read a.toNat ++ m.read (a.toNat + 1) ++ m.read (a.toNat + 2) ++ m.read (a.toNat + 3))

/-- R60: the data port's read and write, their two checks in order, and the bytes moved. -/
def Obligations.DataPortChecksAndMoves : Prop :=
  ∀ (m : Memory) (a v : Word),
    dataRead m a =
      (if a.toNat % 4 ≠ 0 then .error ⟨.dataMisaligned, a⟩
       else if 4096 ≤ a.toNat then .error ⟨.dataOutOfRange, a⟩
       else .ok (m.read a.toNat ++ m.read (a.toNat + 1) ++ m.read (a.toNat + 2) ++ m.read (a.toNat + 3))) ∧
    (a.toNat % 4 ≠ 0 → dataWrite m a v = .error ⟨.dataMisaligned, a⟩) ∧
    (a.toNat % 4 = 0 → 4096 ≤ a.toNat → dataWrite m a v = .error ⟨.dataOutOfRange, a⟩) ∧
    (a.toNat % 4 = 0 → a.toNat < 4096 → m.wf = true → ∃ m' : Memory, dataWrite m a v = .ok m' ∧
      m'.read a.toNat = v.extractLsb' 24 8 ∧ m'.read (a.toNat + 1) = v.extractLsb' 16 8 ∧
      m'.read (a.toNat + 2) = v.extractLsb' 8 8 ∧ m'.read (a.toNat + 3) = v.extractLsb' 0 8 ∧
      ∀ x : Nat, x < a.toNat ∨ a.toNat + 4 ≤ x → m'.read x = m.read x)

/-- A word written through the data port reads back through it, every other word reads as before, and the memory stays canonical
and inside its bound (R60, R62). -/
def Obligations.DataPortWriteThenRead : Prop :=
  ∀ (m m' : Memory) (a v : Word), m.wf = true → m.below dmemBytes = true → dataWrite m a v = .ok m' →
    dataRead m' a = .ok v ∧ (∀ b : Word, b ≠ a → dataRead m' b = dataRead m b) ∧ m'.wf = true ∧
    m'.below dmemBytes = true

/-! ### Loader and host -/

/-- R271: word k of an image is what every fetch at 4k reads, zero after the last word, and no number of steps changes it; an output
of more than 1024 words is refused. -/
def Obligations.LoadedWordsAreFetched : Prop :=
  ∀ ws : List Word,
    (ws.length ≤ 1024 → ∃ m : Memory, loadImem ws = .ok m ∧
      (∀ (policy : FetchPolicy) (k : Nat), k < 1024 →
        ifetch policy m (BitVec.ofNat 32 (4 * k)) = .ok (ws.getD k 0#32)) ∧
      (∀ k < ws.length, ∀ b < 4, m.read (4 * k + b) = byteOfWord (ws.getD k 0#32) b) ∧
      (∀ a : Nat, 4 * ws.length ≤ a → m.read a = 0#8) ∧
      ∀ (n : Nat) (s : State), s.imem = m → (stateAfter n s).imem = m) ∧
    (1024 < ws.length → loadImem ws = .error .tooLarge)

/-- R272: a line is a byte exactly when it is the byte's eight bits as characters, bit 7 first; an image is bytes exactly when each
line is one; four lines compose one instruction, the first byte most significant; the persisted image of any words reads back,
and an image with a line that is not exactly eight characters 0 or 1 is refused. That any number of lines is parsed is the
model's choice (log 23). -/
def Obligations.PersistedImagesReadBack : Prop :=
  (∀ (line : Text) (b : Byte), byteOfLine line = some b ↔
    line.length = 8 ∧ ∀ k : Nat, k < 8 → line.getD k ' ' = if b.getLsbD (7 - k) then '1' else '0') ∧
  (∀ (lines : List Text) (bs : List Byte), bytesOfLines lines = .ok bs ↔ lines.map byteOfLine = bs.map some) ∧
  (∀ (l0 l1 l2 l3 : Text) (b0 b1 b2 b3 : Byte) (rest : List Text) (ws : List Word), byteOfLine l0 = some b0 →
    byteOfLine l1 = some b1 → byteOfLine l2 = some b2 → byteOfLine l3 = some b3 → wordsOfLines rest = .ok ws →
    wordsOfLines (l0 :: l1 :: l2 :: l3 :: rest) = .ok ((b0 ++ b1 ++ b2 ++ b3) :: ws)) ∧
  (∀ ws : List Word, wordsOfLines (linesOfWords ws) = .ok ws) ∧
  (∀ lines : List Text, (∃ l ∈ lines, ¬ (l.length = 8 ∧ ∀ c ∈ l, c = '0' ∨ c = '1')) →
    wordsOfLines lines = .error .malformedLine)

/-- `run_until_halt(bound)` is that many steps, every one from a RUNNING state, stopping before the bound only at the end of the run;
reaching the bound changes no status (R282, R283). -/
def Obligations.RunStopsAtTheEndOrTheBound : Prop :=
  ∀ (bound : Nat) (s : State),
    (runUntilHalt bound s).1 = stateAfter (runUntilHalt bound s).2 s ∧ (runUntilHalt bound s).2 ≤ bound ∧
    ((runUntilHalt bound s).2 < bound → (runUntilHalt bound s).1.status ≠ .running) ∧
    ∀ k < (runUntilHalt bound s).2, (stateAfter k s).status = .running

/-- The host's calls but `load_dmem` before the first step, which stands below (R283). `reset()` gives the reset state of the next
launch and keeps the images (R270; keeping them is the model's choice, log 12). `load_imem` before the first step replaces the
instruction memory and nothing else, or is refused; after the first step loads are refused. A refused load leaves the session
as it was (the model's choice, log 22). Reads change nothing, and a `read_dmem` that fails the port's checks is reported and
leaves the run status (D32). `step()` is one cycle and `run_until_halt(bound)` the bounded run; each answers the new status,
and neither changes a memory or the launch. What counts as the first step, every `step()` call and a bounded run that did a
cycle, is the model's choice (log 14). -/
def Obligations.HostWritesNothingDuringARun : Prop :=
  (∀ h : Session, hostCall h .reset =
    (⟨{ State.resetOfLaunch (h.launch + 1) with imem := h.machine.imem, dmem := h.machine.dmem }, false, h.launch + 1⟩,
     .nothing)) ∧
  (∀ (h : Session) (ws : List Word), h.started = false →
    (ws.length ≤ 1024 → ∃ m : Memory, loadImem ws = .ok m ∧
      hostCall h (.loadImem ws) = ({ h with machine := { h.machine with imem := m } }, .ok)) ∧
    (1024 < ws.length → hostCall h (.loadImem ws) = (h, .refused .tooLarge))) ∧
  (∀ (h : Session) (ws : List Word), h.started = true → hostCall h (.loadImem ws) = (h, .refused .afterFirstStep)) ∧
  (∀ (h : Session) (bs : List Byte), h.started = true → hostCall h (.loadDmem bs) = (h, .refused .afterFirstStep)) ∧
  (∀ (h : Session) (a : Word), hostCall h (.readDmem a) =
    (h, match dataRead h.machine.dmem a with | .ok w => .word w | .error e => .dataError e)) ∧
  (∀ h : Session, hostCall h .readState = (h, .view (viewState h.machine)) ∧
    ∀ r : Reg, (viewState h.machine).x[r.val] = readReg h.machine r) ∧
  (∀ h : Session, hostCall h .step = (⟨stepState h.machine, true, h.launch⟩, .status (stepState h.machine).status) ∧
    step h.machine = .next (stepState h.machine) ∧ (stepState h.machine).imem = h.machine.imem ∧
    (stepState h.machine).dmem = h.machine.dmem) ∧
  (∀ (h : Session) (bound : Nat), hostCall h (.runUntilHalt bound) =
      (⟨(runUntilHalt bound h.machine).1, h.started || decide (0 < (runUntilHalt bound h.machine).2), h.launch⟩,
       .ran (runUntilHalt bound h.machine).1.status (runUntilHalt bound h.machine).2) ∧
    (runUntilHalt bound h.machine).1.imem = h.machine.imem ∧ (runUntilHalt bound h.machine).1.dmem = h.machine.dmem)

/-- R284: HALTED gives success, FAULTED gives non-zero, an assembly error gives non-zero and starts no run; a run that was booted
exits by the status it ends in. -/
def Obligations.ExitStatusOfARun : Prop :=
  exitOfStatus .halted = some .success ∧ ExitStatus.success.isSuccess = true ∧
  (∀ (cause : Fault) (pc : Word) (word : Option Word),
    (exitOfStatus (.faulted cause pc word)).map ExitStatus.isSuccess = some false) ∧
  exitOfStatus .running = none ∧
  (∀ (h : Session) (source : List Text) (dmemInit : List Byte) (reports : List AsmReport) (bound : Nat),
    assemble source = .error reports → boot h source dmemInit = .error (.assembly reports) ∧
      drive h source dmemInit bound = .noRun (.assembly reports) ∧
      (drive h source dmemInit bound).exit.map ExitStatus.isSuccess = some false) ∧
  (∀ (h h' : Session) (source : List Text) (dmemInit : List Byte) (bound : Nat), boot h source dmemInit = .ok h' →
    (drive h source dmemInit bound).exit = exitOfStatus (runUntilHalt bound h'.machine).1.status)

/-! ### The assembler -/

/-- What assembles is what the engine executes: every word of an image is a well-formed instruction's, each instruction line is an
instruction whose word at the line's address decodes to it (in its canonical form, which has the same meaning), and a step of a
machine with the image loaded and pc at that address runs it (R1, R100, R271; with `FUNCT_NOP = 0`, log 2). -/
def Obligations.AssembledWordsDecode : Prop :=
  ∀ (policy : UnknownRegPolicy) (source : List Text) (ws : List Word), assembleUnder policy source = .ok ws →
    (∀ w ∈ ws, ∃ i : Instr, decodeWord w = .ok i ∧ i.wellFormed = true) ∧
    ∀ p ∈ placeLines 1 0 source, ∀ (mnemonic : Text) (operands : List Text), p.line = .instruction mnemonic operands →
      ∃ (i : Instr) (w : Word),
        instrOfLine policy (labelTable (placeLines 1 0 source)) p.address mnemonic operands = .ok i ∧
        ws[p.address / 4]? = some w ∧ decodeWord w = .ok i.canonical ∧ (∀ s : State, exec i.canonical s = exec i s) ∧
        ∀ s : State, loadImem ws = .ok s.imem → s.pc.toNat = p.address → s.status = .running → step s = exec i s

/-- One word per instruction line, in source order, each at the address pass 1 gave its line (R100, R103, R104). -/
def Obligations.AssembledWordsStandAtTheirAddresses : Prop :=
  ∀ (policy : UnknownRegPolicy) (source : List Text) (ws : List Word), assembleUnder policy source = .ok ws →
    ws.length = (source.filter fun l => (classify l).isInstruction).length ∧
    ∀ p ∈ placeLines 1 0 source, p.address % 4 = 0 ∧
      (p.line.isInstruction = true → ∃ w : Word,
        wordOfLine policy (labelTable (placeLines 1 0 source)) p = .ok (some w) ∧ ws[p.address / 4]? = some w)

/-- An image is produced exactly when no line is wrong; otherwise every wrong line is reported (R109, R259). A line is wrong when its
mnemonic is none of the eight (R107) or its operand count is not the mnemonic's (R108), and no other line is reported for
these; an unknown register name is an error of every line that has one under the policy `error`, and is register 0 and no
error under the policy `zero` (R105). That a line has one error, and which of several it is, is the model's choice (log 16). -/
def Obligations.AnyErrorGivesNoImage : Prop :=
  (∀ (policy : UnknownRegPolicy) (source : List Text),
    ((∃ ws : List Word, assembleUnder policy source = .ok ws) ↔
      ∀ p ∈ placeLines 1 0 source, ∃ w : Option Word,
        wordOfLine policy (labelTable (placeLines 1 0 source)) p = .ok w) ∧
    ∀ reports : List AsmReport, assembleUnder policy source = .error reports →
      ∀ p ∈ placeLines 1 0 source, ∀ e : AsmError,
        wordOfLine policy (labelTable (placeLines 1 0 source)) p = .error e →
        ⟨p.lineNumber, p.address, e⟩ ∈ reports) ∧
  (∀ (policy : UnknownRegPolicy) (table : List LabelEntry) (n address : Nat) (mnemonic : Text) (operands : List Text)
      (e : AsmError), instrOfLine policy table address mnemonic operands = .error e →
    wordOfLine policy table ⟨n, address, .instruction mnemonic operands⟩ = .error e) ∧
  (∀ (policy : UnknownRegPolicy) (table : List LabelEntry) (address : Nat) (mnemonic : Text) (operands : List Text),
    instrOfLine policy table address mnemonic operands = .error .unknownMnemonic ↔
      mnemonic ∉ ["add".toList, "move".toList, "mult".toList, "mflo".toList, "nop".toList, "addi".toList, "beq".toList,
        "j".toList]) ∧
  (∀ (policy : UnknownRegPolicy) (table : List LabelEntry) (address : Nat) (operands : List Text),
    ∀ c ∈ [("add", 3), ("move", 2), ("mult", 2), ("mflo", 1), ("nop", 0), ("addi", 3), ("beq", 3), ("j", 1)],
      (operands.length ≠ c.2 → instrOfLine policy table address c.1.toList operands =
        .error (.operandCount c.2 operands.length)) ∧
      (operands.length = c.2 → ∀ expected got : Nat, instrOfLine policy table address c.1.toList operands ≠
        .error (.operandCount expected got))) ∧
  (∀ name : Text,
    (∀ (policy : UnknownRegPolicy) (r : Reg), name = registerNames[r.val].toList → registerOf policy name = .ok r) ∧
    ((∀ r : Reg, name ≠ registerNames[r.val].toList) →
      registerOf .error name = .error (.unknownRegister name) ∧ registerOf .zero name = .ok 0)) ∧
  (∀ (table : List LabelEntry) (address : Nat) (operands : List Text),
    ∀ c ∈ [("add", 3, 3), ("move", 2, 2), ("mult", 2, 2), ("mflo", 1, 1), ("addi", 2, 3), ("beq", 2, 3)],
      operands.length = c.2.2 → (∃ x ∈ operands.take c.2.1, ∀ r : Reg, x ≠ registerNames[r.val].toList) →
      ∃ x ∈ operands.take c.2.1, (∀ r : Reg, x ≠ registerNames[r.val].toList) ∧
        instrOfLine .error table address c.1.toList operands = .error (.unknownRegister x)) ∧
  ∀ (table : List LabelEntry) (address : Nat) (mnemonic name : Text) (operands : List Text),
    instrOfLine .zero table address mnemonic operands ≠ .error (.unknownRegister name)

/-- R110 to R113: the word of each R-class line with operands, for every register named in it. -/
def Obligations.RTypeLinesEncode : Prop :=
  ∀ (policy : UnknownRegPolicy) (table : List LabelEntry) (n address : Nat) (a b c : Reg),
    wordOfLine policy table ⟨n, address, .instruction "add".toList
        [registerNames[a.val].toList, registerNames[b.val].toList, registerNames[c.val].toList]⟩ =
      .ok (some (encR (bitsOfReg b) (bitsOfReg c) (bitsOfReg a) 0#5 functAdd)) ∧
    wordOfLine policy table ⟨n, address, .instruction "move".toList
        [registerNames[a.val].toList, registerNames[b.val].toList]⟩ =
      .ok (some (encR (bitsOfReg b) 0#5 (bitsOfReg a) 0#5 functAdd)) ∧
    wordOfLine policy table ⟨n, address, .instruction "mult".toList
        [registerNames[a.val].toList, registerNames[b.val].toList]⟩ =
      .ok (some (encR (bitsOfReg a) (bitsOfReg b) 0#5 0#5 functMult)) ∧
    wordOfLine policy table ⟨n, address, .instruction "mflo".toList [registerNames[a.val].toList]⟩ =
      .ok (some (encR 0#5 0#5 (bitsOfReg a) 0#5 functMflo))

/-- The word of a `nop` line, which is the sentinel with this model's choice `FUNCT_NOP = 0` (log 2; R114, R231). -/
def Obligations.NopLineGivesTheSentinel : Prop :=
  ∀ (policy : UnknownRegPolicy) (table : List LabelEntry) (n address : Nat),
    wordOfLine policy table ⟨n, address, .instruction "nop".toList []⟩ = .ok (some (encR 0#5 0#5 0#5 0#5 functNop)) ∧
    encR 0#5 0#5 0#5 0#5 functNop = 0#32 ∧ decodeWord (encR 0#5 0#5 0#5 0#5 functNop) = .ok .haltSentinel

/-- The word of each line with a literal or a label, and the error where it does not fit or the label is undefined (R102, R106, R115
to R117). -/
def Obligations.LiteralLinesEncode : Prop :=
  (∀ (policy : UnknownRegPolicy) (table : List LabelEntry) (n address : Nat) (a b : Reg) (operand : Text) (v : Int),
    literalOfText operand = some v →
    wordOfLine policy table ⟨n, address, .instruction "addi".toList
        [registerNames[a.val].toList, registerNames[b.val].toList, operand]⟩ =
      (if -32768 ≤ v ∧ v ≤ 32767 then .ok (some (encI opcAddi (bitsOfReg b) (bitsOfReg a) (BitVec.ofInt 16 v)))
       else .error .outOfRange) ∧
    wordOfLine policy table ⟨n, address, .instruction "beq".toList
        [registerNames[a.val].toList, registerNames[b.val].toList, operand]⟩ =
      (if -32768 ≤ v ∧ v ≤ 32767 then .ok (some (encI opcBeq (bitsOfReg a) (bitsOfReg b) (BitVec.ofInt 16 v)))
       else .error .outOfRange) ∧
    wordOfLine policy table ⟨n, address, .instruction "j".toList [operand]⟩ =
      (if 0 ≤ v ∧ v < 2 ^ 28 ∧ v % 4 = 0 then .ok (some (encJ opcJ (BitVec.ofInt 26 (v / 4))))
       else .error .badJumpAddress)) ∧
  (∀ (policy : UnknownRegPolicy) (table : List LabelEntry) (n address : Nat) (a b : Reg) (operand : Text) (e : LabelEntry),
    literalOfText operand = none → findLabel table operand = some e →
    wordOfLine policy table ⟨n, address, .instruction "beq".toList
        [registerNames[a.val].toList, registerNames[b.val].toList, operand]⟩ =
      (if -32768 ≤ branchOffset address e.address ∧ branchOffset address e.address ≤ 32767 then
        .ok (some (encI opcBeq (bitsOfReg a) (bitsOfReg b) (immField (branchOffset address e.address))))
       else .error .outOfRange) ∧
    wordOfLine policy table ⟨n, address, .instruction "j".toList [operand]⟩ =
      (if e.address / 4 < 2 ^ 26 then .ok (some (encJ opcJ (targetField (e.address / 4)))) else .error .outOfRange)) ∧
  (∀ (policy : UnknownRegPolicy) (table : List LabelEntry) (n address : Nat) (a b : Reg) (operand : Text),
    literalOfText operand = none →
    wordOfLine policy table ⟨n, address, .instruction "addi".toList
        [registerNames[a.val].toList, registerNames[b.val].toList, operand]⟩ = .error (.badLiteral operand) ∧
    (findLabel table operand = none →
      wordOfLine policy table ⟨n, address, .instruction "beq".toList
        [registerNames[a.val].toList, registerNames[b.val].toList, operand]⟩ = .error (.undefinedLabel operand) ∧
      wordOfLine policy table ⟨n, address, .instruction "j".toList [operand]⟩ = .error (.undefinedLabel operand))) ∧
  ∀ address target : Nat, address % 4 = 0 → target % 4 = 0 →
    4 * branchOffset address target = (target : Int) - ((address : Int) + 4)

/-- A `beq` with the offset the assembler computes for a label, run at its own address with equal registers, arrives at the label,
and a `j` with the index it computes arrives at it from anywhere in the instruction memory. And from source to step: in a
loaded image of a source that assembles, the `beq` and `j` lines that name a label go to the address pass 1 gave the label's
line, the `beq` only when its registers are equal and else to the next word (R103, R116, R117, R210, R212). -/
def Obligations.TransfersArriveAtTheirLabel : Prop :=
  (∀ (r : Reg) (address label : Nat) (s : State), address % 4 = 0 → label % 4 = 0 → address < 4096 → label ≤ 4096 →
    s.pc.toNat = address → ∃ t : State, exec (.beq r r (branchOffset address label)) s = .next t ∧ t.pc.toNat = label) ∧
  (∀ (label : Nat) (s : State), label % 4 = 0 → label ≤ 4096 → s.pc.toNat < 4096 →
    ∃ t : State, exec (.j (label / 4)) s = .next t ∧ t.pc.toNat = label) ∧
  ∀ (policy : UnknownRegPolicy) (source : List Text) (ws : List Word), assembleUnder policy source = .ok ws →
    ∀ p ∈ placeLines 1 0 source, ∀ q ∈ placeLines 1 0 source, ∀ before after operand : Text,
      q.line = .label before after → labelName before after = some operand → literalOfText operand = none →
      ∀ s : State, loadImem ws = .ok s.imem → s.pc.toNat = p.address → s.status = .running →
        (∀ a b : Reg, p.line = .instruction "beq".toList
            [registerNames[a.val].toList, registerNames[b.val].toList, operand] →
          ∃ t : State, step s = .next t ∧
            t.pc.toNat = if readReg s a = readReg s b then q.address else p.address + 4) ∧
        (p.line = .instruction "j".toList [operand] → ∃ t : State, step s = .next t ∧ t.pc.toNat = q.address)

/-! ### The data image and the drive -/

/-- R283 `load_dmem`: at most 4096 bytes, stored from address 0, 0 after them, so that the data port reads them big-endian; more is
refused. Before the first step a load replaces that image and nothing else. That a refused load gives back the very session, and
so bars no later call, is the model's choice (log 22). -/
def Obligations.DataImageIsStored : Prop :=
  ∀ bs : List Byte,
    (bs.length ≤ 4096 → ∃ m : Memory, loadDmem bs = .ok m ∧ (∀ a : Nat, m.read a = bs.getD a 0#8) ∧
      (∀ k < 1024, dataRead m (BitVec.ofNat 32 (4 * k)) =
        .ok (bs.getD (4 * k) 0#8 ++ bs.getD (4 * k + 1) 0#8 ++ bs.getD (4 * k + 2) 0#8 ++ bs.getD (4 * k + 3) 0#8)) ∧
      ∀ h : Session, h.started = false →
        hostCall h (.loadDmem bs) = ({ h with machine := { h.machine with dmem := m } }, .ok)) ∧
    (4096 < bs.length → loadDmem bs = .error .tooLarge ∧ ∀ h : Session, h.started = false →
      hostCall h (.loadDmem bs) = (h, .refused .tooLarge))

/-- R273 steps 4 and 5: a booted drive that reaches the end of its run gives the exit status and the register dump of the end state,
one row per register in index order with its name and the value it reads (R281); one whose bound comes first gives neither
(R282); a boot that fails gives no dump, which for a refused load is the model's choice (log 14: the spec says only that no run
starts). -/
def Obligations.DriveEmitsTheRegisterDump : Prop :=
  (∀ (h h' : Session) (source : List Text) (dmemInit : List Byte) (bound : Nat), boot h source dmemInit = .ok h' →
    let s := (runUntilHalt bound h'.machine).1
    (∀ e : ExitStatus, exitOfStatus s.status = some e → ∃ h'' : Session,
      drive h source dmemInit bound = .ended e (registerDump s) h'' ∧ h''.machine = s) ∧
    (s.status = .running → ∃ h'' : Session, drive h source dmemInit bound = .paused h'' ∧ h''.machine = s)) ∧
  (∀ (h : Session) (source : List Text) (dmemInit : List Byte) (bound : Nat) (why : BootFailure),
    boot h source dmemInit = .error why → drive h source dmemInit bound = .noRun why) ∧
  ∀ s : State, (registerDump s).length = 32 ∧
    ∀ r : Reg, (registerDump s)[r.val]? = some ⟨r, registerNames[r.val].toList, readReg s r⟩

/-! ### Labels -/

/-- Pass 1: line k is numbered k + 1 and gets four bytes for every instruction line before it (R103); the label table holds exactly
the labels of the label lines, each bound to its line's address, which is the next instruction's (R102); and in a source that
assembles every label line is well-formed and its name finds its own entry, so that no name is defined twice, at an address at
most one word past the last instruction. -/
def Obligations.LabelsBindTheNextInstruction : Prop :=
  ∀ source : List Text,
    (placeLines 1 0 source).length = source.length ∧
    (∀ (k : Nat) (line : Text), source[k]? = some line → (placeLines 1 0 source)[k]? =
      some ⟨k + 1, 4 * ((source.take k).filter fun l => (classify l).isInstruction).length, classify line⟩) ∧
    (∀ e : LabelEntry, e ∈ labelTable (placeLines 1 0 source) ↔
      ∃ p ∈ placeLines 1 0 source, ∃ before after : Text, p.line = .label before after ∧
        labelName before after = some e.name ∧ e.lineNumber = p.lineNumber ∧ e.address = p.address) ∧
    ∀ (policy : UnknownRegPolicy) (ws : List Word), assembleUnder policy source = .ok ws →
      ∀ p ∈ placeLines 1 0 source, ∀ before after : Text, p.line = .label before after →
        ∃ name : Text, labelName before after = some name ∧
          findLabel (labelTable (placeLines 1 0 source)) name = some ⟨name, p.lineNumber, p.address⟩ ∧
          p.address ≤ 4 * ws.length

/-! ### Persisted images -/

/-- R272 at the host's boundary. A boot over persisted images succeeds exactly when both load, and then starts as R273 says; a line
that is not exactly eight characters 0 or 1 in either image, or more than 4096 lines, starts no run, and the host's load of such
an image changes nothing (log 22). The images written of the memories have 4096 lines and load back as those memories. Images
with fewer lines load, with 0 in the bytes they do not give: that is the model's choice (log 23). -/
def Obligations.PersistedImagesAreLoaded : Prop :=
  (∀ (h h' : Session) (imemLines dmemLines : List Text), bootImages h imemLines dmemLines = .ok h' ↔
    ∃ (ws : List Word) (bs : List Byte) (im dm : Memory), wordsOfLines imemLines = .ok ws ∧ bytesOfLines dmemLines = .ok bs ∧
      loadImem ws = .ok im ∧ loadDmem bs = .ok dm ∧
      h' = ⟨{ State.resetOfLaunch (h.launch + 1) with imem := im, dmem := dm }, false, h.launch + 1⟩) ∧
  (∀ (h : Session) (imemLines dmemLines : List Text) (bound : Nat),
    (∃ lines ∈ [imemLines, dmemLines], 4096 < lines.length ∨
      ∃ l ∈ lines, ¬ (l.length = 8 ∧ ∀ c ∈ l, c = '0' ∨ c = '1')) →
    ∃ why : LoadError, bootImages h imemLines dmemLines = .error (.load why) ∧
      driveImages h imemLines dmemLines bound = .noRun (.load why)) ∧
  (∀ (h : Session) (lines : List Text), (∃ l ∈ lines, ¬ (l.length = 8 ∧ ∀ c ∈ l, c = '0' ∨ c = '1')) →
    hostLoadImemImage h lines = (h, .refused .malformedLine) ∧ hostLoadDmemImage h lines = (h, .refused .malformedLine)) ∧
  (∀ (h : Session) (lines : List Text), 4096 < lines.length →
    (∃ why : LoadError, hostLoadImemImage h lines = (h, .refused why)) ∧
    ∃ why : LoadError, hostLoadDmemImage h lines = (h, .refused why)) ∧
  (∀ lines : List Text, lines.length ≤ 4096 →
    (∀ ws : List Word, wordsOfLines lines = .ok ws → ∃ m : Memory, loadImemImage lines = .ok m ∧
      ∀ a : Nat, m.read a = (ws.flatMap bytesOfWord).getD a 0#8) ∧
    ∀ bs : List Byte, bytesOfLines lines = .ok bs → ∃ m : Memory, loadDmemImage lines = .ok m ∧
      ∀ a : Nat, m.read a = bs.getD a 0#8) ∧
  (∀ (h : Session) (lines : List Text) (m : Memory), h.started = false →
    (loadImemImage lines = .ok m → hostLoadImemImage h lines = ({ h with machine := { h.machine with imem := m } }, .ok)) ∧
    (loadDmemImage lines = .ok m → hostLoadDmemImage h lines = ({ h with machine := { h.machine with dmem := m } }, .ok))) ∧
  ∀ h : Session, h.Inv → (persistImem h).length = 4096 ∧ (persistDmem h).length = 4096 ∧
    loadImemImage (persistImem h) = .ok h.machine.imem ∧ loadDmemImage (persistDmem h) = .ok h.machine.dmem
end

