-- ==== Sys2Proof/Laws/Codec.lean ====
section
/-! SUPPORT. The bit-field codec in numbers: each field of a word, and each composed word, as arithmetic on naturals
(spec/30_encoding.md R84, R85; spec/20_memory.md R52). -/

namespace Sys2Proof

/-- Concatenation in numbers. -/
theorem toNat_append_eq {m n : Nat} (a : BitVec m) (b : BitVec n) : (a ++ b).toNat = a.toNat * 2 ^ n + b.toNat := by
  rw [BitVec.toNat_append, ← Nat.shiftLeft_add_eq_or_of_lt b.isLt, Nat.shiftLeft_eq]

/-! ### Fields of a word (R84) -/

theorem toNat_opcodeOf (w : Word) : (opcodeOf w).toNat = w.toNat / 2 ^ 26 % 2 ^ 6 := by
  simp [opcodeOf, BitVec.extractLsb'_toNat, Nat.shiftRight_eq_div_pow]
theorem toNat_rsOf (w : Word) : (rsOf w).toNat = w.toNat / 2 ^ 21 % 2 ^ 5 := by
  simp [rsOf, BitVec.extractLsb'_toNat, Nat.shiftRight_eq_div_pow]
theorem toNat_rtOf (w : Word) : (rtOf w).toNat = w.toNat / 2 ^ 16 % 2 ^ 5 := by
  simp [rtOf, BitVec.extractLsb'_toNat, Nat.shiftRight_eq_div_pow]
theorem toNat_rdOf (w : Word) : (rdOf w).toNat = w.toNat / 2 ^ 11 % 2 ^ 5 := by
  simp [rdOf, BitVec.extractLsb'_toNat, Nat.shiftRight_eq_div_pow]
theorem toNat_shamtOf (w : Word) : (shamtOf w).toNat = w.toNat / 2 ^ 6 % 2 ^ 5 := by
  simp [shamtOf, BitVec.extractLsb'_toNat, Nat.shiftRight_eq_div_pow]
theorem toNat_functOf (w : Word) : (functOf w).toNat = w.toNat % 2 ^ 6 := by
  simp [functOf, BitVec.extractLsb'_toNat]
theorem toNat_immOf (w : Word) : (immOf w).toNat = w.toNat % 2 ^ 16 := by
  simp [immOf, BitVec.extractLsb'_toNat]
theorem toNat_targetOf (w : Word) : (targetOf w).toNat = w.toNat % 2 ^ 26 := by
  simp [targetOf, BitVec.extractLsb'_toNat]

/-! ### Composed words (R85) -/

theorem toNat_encR (rs rt rd shamt : BitVec 5) (funct : BitVec 6) :
    (encR rs rt rd shamt funct).toNat =
      rs.toNat * 2 ^ 21 + rt.toNat * 2 ^ 16 + rd.toNat * 2 ^ 11 + shamt.toNat * 2 ^ 6 + funct.toNat := by
  change @BitVec.toNat (6 + 5 + 5 + 5 + 5 + 6) (opcRtype ++ rs ++ rt ++ rd ++ shamt ++ funct) = _
  rw [toNat_append_eq, toNat_append_eq, toNat_append_eq, toNat_append_eq, toNat_append_eq]
  simp only [opcRtype, BitVec.toNat_ofNat]
  omega

theorem toNat_encI (op : BitVec 6) (rs rt : BitVec 5) (imm : BitVec 16) :
    (encI op rs rt imm).toNat = op.toNat * 2 ^ 26 + rs.toNat * 2 ^ 21 + rt.toNat * 2 ^ 16 + imm.toNat := by
  change @BitVec.toNat (6 + 5 + 5 + 16) (op ++ rs ++ rt ++ imm) = _
  rw [toNat_append_eq, toNat_append_eq, toNat_append_eq]
  omega

theorem toNat_encJ (op : BitVec 6) (target : BitVec 26) :
    (encJ op target).toNat = op.toNat * 2 ^ 26 + target.toNat := by
  change @BitVec.toNat (6 + 26) (op ++ target) = _
  rw [toNat_append_eq]

/-! ### A word is the composition of its fields (R84, R85) -/

theorem encR_fields {w : Word} (h : opcodeOf w = opcRtype) :
    encR (rsOf w) (rtOf w) (rdOf w) (shamtOf w) (functOf w) = w := by
  apply BitVec.eq_of_toNat_eq
  have ho := toNat_opcodeOf w
  rw [h, opcRtype, BitVec.toNat_ofNat] at ho
  rw [toNat_encR, toNat_rsOf, toNat_rtOf, toNat_rdOf, toNat_shamtOf, toNat_functOf]
  have := w.isLt
  omega

theorem encI_fields (w : Word) : encI (opcodeOf w) (rsOf w) (rtOf w) (immOf w) = w := by
  apply BitVec.eq_of_toNat_eq
  rw [toNat_encI, toNat_opcodeOf, toNat_rsOf, toNat_rtOf, toNat_immOf]
  have := w.isLt
  omega

theorem encJ_fields (w : Word) : encJ (opcodeOf w) (targetOf w) = w := by
  apply BitVec.eq_of_toNat_eq
  rw [toNat_encJ, toNat_opcodeOf, toNat_targetOf]
  have := w.isLt
  omega

/-- Words with the same six fields are the same word. -/
theorem word_ext {v w : Word} (ho : opcodeOf v = opcodeOf w) (hs : rsOf v = rsOf w) (ht : rtOf v = rtOf w)
    (hd : rdOf v = rdOf w) (hh : shamtOf v = shamtOf w) (hf : functOf v = functOf w) : v = w := by
  apply BitVec.eq_of_toNat_eq
  have := toNat_opcodeOf v
  have := toNat_rsOf v
  have := toNat_rtOf v
  have := toNat_rdOf v
  have := toNat_shamtOf v
  have := toNat_functOf v
  rw [ho, toNat_opcodeOf] at *
  rw [hs, toNat_rsOf] at *
  rw [ht, toNat_rtOf] at *
  rw [hd, toNat_rdOf] at *
  rw [hh, toNat_shamtOf] at *
  rw [hf, toNat_functOf] at *
  have := v.isLt
  have := w.isLt
  omega

/-- Masking a word masks its fields. -/
theorem fields_and (v m : Word) :
    opcodeOf (v &&& m) = opcodeOf v &&& opcodeOf m ∧ rsOf (v &&& m) = rsOf v &&& rsOf m ∧
    rtOf (v &&& m) = rtOf v &&& rtOf m ∧ rdOf (v &&& m) = rdOf v &&& rdOf m ∧
    shamtOf (v &&& m) = shamtOf v &&& shamtOf m ∧ functOf (v &&& m) = functOf v &&& functOf m := by
  simp [opcodeOf, rsOf, rtOf, rdOf, shamtOf, functOf, BitVec.extractLsb'_and]

/-! ### Words and bytes (R52) -/

theorem toNat_wordOfBytes (b0 b1 b2 b3 : Byte) :
    (wordOfBytes b0 b1 b2 b3).toNat = b0.toNat * 2 ^ 24 + b1.toNat * 2 ^ 16 + b2.toNat * 2 ^ 8 + b3.toNat := by
  change @BitVec.toNat (8 + 8 + 8 + 8) (b0 ++ b1 ++ b2 ++ b3) = _
  rw [toNat_append_eq, toNat_append_eq, toNat_append_eq]
  omega

theorem toNat_byteOfWord (w : Word) :
    (byteOfWord w 0).toNat = w.toNat / 2 ^ 24 % 2 ^ 8 ∧ (byteOfWord w 1).toNat = w.toNat / 2 ^ 16 % 2 ^ 8 ∧
    (byteOfWord w 2).toNat = w.toNat / 2 ^ 8 % 2 ^ 8 ∧ (byteOfWord w 3).toNat = w.toNat % 2 ^ 8 := by
  simp [byteOfWord, BitVec.extractLsb'_toNat, Nat.shiftRight_eq_div_pow]

/-- A word taken apart into its bytes and put together again. -/
@[simp] theorem wordOfBytes_byteOfWord (w : Word) :
    wordOfBytes (byteOfWord w 0) (byteOfWord w 1) (byteOfWord w 2) (byteOfWord w 3) = w := by
  obtain ⟨h0, h1, h2, h3⟩ := toNat_byteOfWord w
  apply BitVec.eq_of_toNat_eq
  rw [toNat_wordOfBytes, h0, h1, h2, h3]
  have := w.isLt
  omega

/-- Decoding a word's bytes is decoding the word. -/
@[simp] theorem decodeBytes_bytesOfWord (w : Word) (rest : List Byte) :
    decodeBytes (bytesOfWord w ++ rest) =
      match decodeWord w with
      | .ok i => .ok (i, rest)
      | .error e => .error e := by
  cases h : decodeWord w <;> simp [bytesOfWord, decodeBytes, wordOfBytes_byteOfWord, h]

/-! ### Register fields (R89) -/

@[simp] theorem regOfBits_bitsOfReg (r : Reg) : regOfBits (bitsOfReg r) = r := rfl
@[simp] theorem bitsOfReg_regOfBits (b : BitVec 5) : bitsOfReg (regOfBits b) = b := rfl
@[simp] theorem bitsOfReg_zero : bitsOfReg 0 = 0#5 := rfl

/-- A 16-bit field read as a signed number and written again. -/
@[simp] theorem immField_toInt (b : BitVec 16) : immField b.toInt = b := by simp [immField]

/-- A signed 16-bit value written to its field and read again. -/
theorem toInt_immField {v : Int} (h : fitsSigned16 v = true) : (immField v).toInt = v := by
  simp only [fitsSigned16, Bool.and_eq_true, decide_eq_true_eq] at h
  rw [immField, BitVec.toInt_ofInt]
  apply Int.bmod_eq_of_le <;> omega

@[simp] theorem targetField_toNat (b : BitVec 26) : targetField b.toNat = b := by simp [targetField]

theorem toNat_targetField {n : Nat} (h : fitsUnsigned26 n = true) : (targetField n).toNat = n := by
  simp only [fitsUnsigned26, decide_eq_true_eq] at h
  rw [targetField, BitVec.toNat_ofNat]
  omega

/-! ### The decoder -/

/-- Everything a decoded instruction can be, and the word it is read from. -/
theorem decodeWord_ok_cases {w : Word} {i : Instr} (h : decodeWord w = .ok i) :
    (w = 0#32 ∧ i = .haltSentinel) ∨
    (w ≠ 0#32 ∧ opcodeOf w = opcRtype ∧ functOf w = functAdd ∧
      i = .add (regOfBits (rdOf w)) (regOfBits (rsOf w)) (regOfBits (rtOf w)) (shamtOf w)) ∨
    (w ≠ 0#32 ∧ opcodeOf w = opcRtype ∧ functOf w = functMult ∧
      i = .mult (regOfBits (rsOf w)) (regOfBits (rtOf w)) (rdOf w) (shamtOf w)) ∨
    (w ≠ 0#32 ∧ opcodeOf w = opcRtype ∧ functOf w = functMflo ∧
      i = .mflo (regOfBits (rdOf w)) (rsOf w) (rtOf w) (shamtOf w)) ∨
    (w ≠ 0#32 ∧ opcodeOf w = opcAddi ∧ i = .addi (regOfBits (rtOf w)) (regOfBits (rsOf w)) (immOf w).toInt) ∨
    (w ≠ 0#32 ∧ opcodeOf w = opcBeq ∧ i = .beq (regOfBits (rsOf w)) (regOfBits (rtOf w)) (immOf w).toInt) ∨
    (w ≠ 0#32 ∧ opcodeOf w = opcJ ∧ i = .j (targetOf w).toNat) := by
  unfold decodeWord at h
  repeat' split at h
  all_goals simp_all

end Sys2Proof
end

