-- ==== Sys2Proof/Laws/Memory.lean ====
section
/-! SUPPORT. The laws of a memory (spec/20_memory.md R51, R52): a read after a write, the canonical form, and that every
operation keeps it. -/

namespace Sys2Proof.Machine

namespace Memory

@[simp] theorem read_nil (x : Nat) : Memory.read [] x = 0#8 := rfl

@[simp] theorem read_cons (a : Nat) (b : Byte) (m : Memory) (x : Nat) :
    Memory.read ((a, b) :: m) x = if x = a then b else m.read x := rfl

/-- The canonical form, one cell at a time. -/
theorem wf_cons {a : Nat} {b : Byte} {m : Memory} :
    Memory.wf ((a, b) :: m) = true ↔ b ≠ 0#8 ∧ (∀ c ∈ m, a < c.1) ∧ m.wf = true := by
  simp [Memory.wf, and_assoc]

theorem below_cons {cap a : Nat} {b : Byte} {m : Memory} :
    Memory.below cap ((a, b) :: m) = true ↔ a < cap ∧ m.below cap = true := by
  simp [Memory.below]

/-- Below the first listed address everything reads as 0. -/
theorem read_of_lt_all {m : Memory} {x : Nat} (h : ∀ c ∈ m, x < c.1) : m.read x = 0#8 := by
  induction m with
  | nil => rfl
  | cons c m ih =>
    obtain ⟨a, b⟩ := c
    have hx : x < a := h (a, b) (by simp)
    simp [Nat.ne_of_lt hx, ih fun c hc => h c (by simp [hc])]

/-- Outside a memory's bound everything reads as 0. -/
theorem read_of_below {m : Memory} {cap x : Nat} (h : m.below cap = true) (hx : cap ≤ x) : m.read x = 0#8 := by
  induction m with
  | nil => rfl
  | cons c m ih =>
    obtain ⟨a, b⟩ := c
    rw [below_cons] at h
    have : x ≠ a := by omega
    simp [this, ih h.2]

/-- A write leaves every other address alone. -/
theorem read_write_of_ne (m : Memory) {x y : Nat} (v : Byte) (h : y ≠ x) : (m.write x v).read y = m.read y := by
  induction m with
  | nil => by_cases hv : v = 0#8 <;> simp [Memory.write, hv, h]
  | cons c m ih =>
    obtain ⟨a, b⟩ := c
    simp only [Memory.write]
    split
    · split <;> simp [h]
    · split
      · next he =>
        subst he
        split <;> simp [h]
      · simp [ih]

/-- A read after a write to the same address gives the value written. -/
theorem read_write_same {m : Memory} (hm : m.wf = true) (x : Nat) (v : Byte) : (m.write x v).read x = v := by
  induction m with
  | nil => by_cases hv : v = 0#8 <;> simp [Memory.write, hv]
  | cons c m ih =>
    obtain ⟨a, b⟩ := c
    obtain ⟨_, hall, hwf⟩ := wf_cons.mp hm
    simp only [Memory.write]
    split
    · next hlt =>
      split
      · next hv =>
        subst hv
        exact read_of_lt_all (m := (a, b) :: m) fun c hc => by
          rcases List.mem_cons.mp hc with rfl | hc
          · exact hlt
          · exact lt_trans hlt (hall c hc)
      · simp
    · split
      · next he =>
        subst he
        split
        · next hv => rw [hv]; exact read_of_lt_all hall
        · simp
      · next hne => simp [hne, ih hwf]

/-- The addresses a write can list. -/
theorem mem_write {m : Memory} {x : Nat} {v : Byte} {c : Host.Cell} (h : c ∈ m.write x v) : c ∈ m ∨ c = (x, v) := by
  induction m with
  | nil =>
    by_cases hv : v = 0#8
    · simp [Memory.write, hv] at h
    · simp [Memory.write, hv] at h; exact .inr h
  | cons d m ih =>
    obtain ⟨a, b⟩ := d
    simp only [Memory.write] at h
    split at h
    · split at h
      · exact .inl h
      · rcases List.mem_cons.mp h with rfl | h
        · exact .inr rfl
        · exact .inl h
    · split at h
      · split at h
        · exact .inl (List.mem_cons_of_mem _ h)
        · rcases List.mem_cons.mp h with rfl | h
          · exact .inr rfl
          · exact .inl (List.mem_cons_of_mem _ h)
      · rcases List.mem_cons.mp h with rfl | h
        · exact .inl (by simp)
        · exact (ih h).imp (List.mem_cons_of_mem _) id

/-- A write keeps the canonical form. -/
theorem wf_write {m : Memory} (hm : m.wf = true) (x : Nat) (v : Byte) : (m.write x v).wf = true := by
  induction m with
  | nil => by_cases hv : v = 0#8 <;> simp [Memory.write, hv, Memory.wf]
  | cons c m ih =>
    obtain ⟨a, b⟩ := c
    obtain ⟨hb, hall, hwf⟩ := wf_cons.mp hm
    simp only [Memory.write]
    split
    · next hlt =>
      split
      · exact hm
      · next hv =>
        refine wf_cons.mpr ⟨hv, fun c hc => ?_, hm⟩
        rcases List.mem_cons.mp hc with rfl | hc
        · exact hlt
        · exact lt_trans hlt (hall c hc)
    · next hnlt =>
      split
      · next he =>
        subst he
        split
        · exact hwf
        · next hv => exact wf_cons.mpr ⟨hv, hall, hwf⟩
      · next hne =>
        refine wf_cons.mpr ⟨hb, fun c hc => ?_, ih hwf⟩
        rcases mem_write hc with hc | rfl
        · exact hall c hc
        · exact lt_of_le_of_ne (Nat.not_lt.mp hnlt) (Ne.symm hne)

/-- A write below the bound keeps the memory below it. -/
theorem below_write {m : Memory} {cap x : Nat} (hm : m.below cap = true) (hx : x < cap) (v : Byte) :
    (m.write x v).below cap = true := by
  simp only [Memory.below, List.all_eq_true, decide_eq_true_eq] at hm ⊢
  intro c hc
  rcases mem_write hc with hc | rfl
  · exact hm c hc
  · exact hx

/-- Canonical memories that read alike are equal. -/
theorem ext_read {m n : Memory} (hm : m.wf = true) (hn : n.wf = true) (h : ∀ x, m.read x = n.read x) : m = n := by
  induction m generalizing n with
  | nil =>
    cases n with
    | nil => rfl
    | cons d n =>
      obtain ⟨a, b⟩ := d
      have := h a
      simp at this
      exact absurd this.symm (wf_cons.mp hn).1
  | cons c m ih =>
    obtain ⟨a, b⟩ := c
    obtain ⟨hb, hall, hwf⟩ := wf_cons.mp hm
    cases n with
    | nil =>
      have := h a
      simp at this
      exact absurd this hb
    | cons d n =>
      obtain ⟨a', b'⟩ := d
      obtain ⟨hb', hall', hwf'⟩ := wf_cons.mp hn
      have haa : a = a' := by
        rcases Nat.lt_trichotomy a a' with hlt | he | hgt
        · have h1 := h a
          have h2 : Memory.read ((a', b') :: n) a = 0#8 := read_of_lt_all fun c hc => by
            rcases List.mem_cons.mp hc with rfl | hc
            · exact hlt
            · exact lt_trans hlt (hall' c hc)
          rw [h2] at h1
          simp at h1
          exact absurd h1 hb
        · exact he
        · have h1 := h a'
          have h2 : Memory.read ((a, b) :: m) a' = 0#8 := read_of_lt_all fun c hc => by
            rcases List.mem_cons.mp hc with rfl | hc
            · exact hgt
            · exact lt_trans hgt (hall c hc)
          rw [h2] at h1
          simp at h1
          exact absurd h1.symm hb'
      subst haa
      have hbb : b = b' := by simpa using h a
      subst hbb
      have : m = n := ih hwf hwf' fun x => by
        by_cases hx : x = a
        · subst hx
          rw [read_of_lt_all hall, read_of_lt_all hall']
        · simpa [hx] using h x
      rw [this]

/-! ### Words -/

theorem wf_writeWord {m : Memory} (hm : m.wf = true) (a : Nat) (v : Word) : (m.writeWord a v).wf = true :=
  wf_write (wf_write (wf_write (wf_write hm _ _) _ _) _ _) _ _

theorem below_writeWord {m : Memory} {cap a : Nat} (hm : m.below cap = true) (ha : a + 3 < cap) (v : Word) :
    (m.writeWord a v).below cap = true :=
  below_write (below_write (below_write (below_write hm (by omega) _) (by omega) _) (by omega) _) ha _

/-- Every byte after a word is written: the word's four, big-endian, and all others as before. -/
theorem read_writeWord {m : Memory} (hm : m.wf = true) (a : Nat) (v : Word) (x : Nat) :
    (m.writeWord a v).read x =
      if x = a then byteOfWord v 0 else if x = a + 1 then byteOfWord v 1 else if x = a + 2 then byteOfWord v 2
      else if x = a + 3 then byteOfWord v 3 else m.read x := by
  have h1 := wf_write hm a (byteOfWord v 0)
  have h2 := wf_write h1 (a + 1) (byteOfWord v 1)
  have h3 := wf_write h2 (a + 2) (byteOfWord v 2)
  unfold Memory.writeWord
  by_cases e3 : x = a + 3
  · subst e3; simp [read_write_same h3]
  · rw [read_write_of_ne _ _ e3]
    by_cases e2 : x = a + 2
    · subst e2; simp [read_write_same h2]
    · rw [read_write_of_ne _ _ e2]
      by_cases e1 : x = a + 1
      · subst e1; simp [read_write_same h1]
      · rw [read_write_of_ne _ _ e1]
        by_cases e0 : x = a
        · subst e0; simp [read_write_same hm]
        · rw [read_write_of_ne _ _ e0]; simp [e0, e1, e2, e3]

/-! ### Images -/

/-- Every cell of an image lies in its range. -/
theorem mem_ofBytesAt {base : Nat} {bs : List Byte} {c : Host.Cell} (h : c ∈ Memory.ofBytesAt base bs) :
    base ≤ c.1 ∧ c.1 < base + bs.length := by
  induction bs generalizing base with
  | nil => simp [Memory.ofBytesAt] at h
  | cons b bs ih =>
    simp only [Memory.ofBytesAt] at h
    simp only [List.length_cons]
    split at h
    · have := ih h; omega
    · rcases List.mem_cons.mp h with rfl | h
      · simp
      · have := ih h; omega

theorem wf_ofBytesAt (base : Nat) (bs : List Byte) : (Memory.ofBytesAt base bs).wf = true := by
  induction bs generalizing base with
  | nil => rfl
  | cons b bs ih =>
    simp only [Memory.ofBytesAt]
    split
    · exact ih _
    · next hb => exact wf_cons.mpr ⟨hb, fun c hc => by have := (mem_ofBytesAt hc).1; omega, ih _⟩

theorem below_ofBytesAt {base cap : Nat} {bs : List Byte} (h : base + bs.length ≤ cap) :
    (Memory.ofBytesAt base bs).below cap = true := by
  simp only [Memory.below, List.all_eq_true, decide_eq_true_eq]
  intro c hc
  have := mem_ofBytesAt hc
  omega

/-- An image reads as its bytes, and as 0 everywhere else. -/
theorem read_ofBytesAt (base : Nat) (bs : List Byte) (x : Nat) :
    (Memory.ofBytesAt base bs).read x = if base ≤ x then bs.getD (x - base) 0#8 else 0#8 := by
  induction bs generalizing base with
  | nil => simp [Memory.ofBytesAt]
  | cons b bs ih =>
    simp only [Memory.ofBytesAt]
    rcases Nat.lt_trichotomy x base with hlt | rfl | hgt
    · have hn : ¬ base ≤ x := by omega
      have hn1 : ¬ base + 1 ≤ x := by omega
      have hne : x ≠ base := by omega
      split <;> simp [ih, hn, hn1, hne]
    · split
      · next hb => simp [ih, hb]
      · simp
    · have hx : base ≤ x := by omega
      have hx1 : base + 1 ≤ x := by omega
      have hne : x ≠ base := by omega
      have hs : x - base = (x - (base + 1)) + 1 := by omega
      split <;> simp [ih, hx, hx1, hne, hs]

end Memory

end Sys2Proof.Machine
end

