-- ==== Sys2Proof/Laws/State.lean ====
section
/-! SUPPORT. One lemma per field per update of the state, so that no later proof unfolds a record update. -/

namespace Sys2Proof.Machine

variable (s : State) (r : Reg) (v v' target : Word) (cause : Fault) (word : Option Word)

/-! ### setPc -/
@[simp] theorem setPc_gpr : (setPc s target).gpr = s.gpr := rfl
@[simp] theorem setPc_pc : (setPc s target).pc = target := rfl
@[simp] theorem setPc_hi : (setPc s target).hi = s.hi := rfl
@[simp] theorem setPc_lo : (setPc s target).lo = s.lo := rfl
@[simp] theorem setPc_imem : (setPc s target).imem = s.imem := rfl
@[simp] theorem setPc_dmem : (setPc s target).dmem = s.dmem := rfl
@[simp] theorem setPc_status : (setPc s target).status = s.status := rfl
@[simp] theorem readReg_setPc : readReg (setPc s target) r = readReg s r := rfl

/-! ### advance -/
@[simp] theorem advance_gpr : (advance s).gpr = s.gpr := rfl
@[simp] theorem advance_pc : (advance s).pc = s.pc + 4#32 := rfl
@[simp] theorem advance_hi : (advance s).hi = s.hi := rfl
@[simp] theorem advance_lo : (advance s).lo = s.lo := rfl
@[simp] theorem advance_imem : (advance s).imem = s.imem := rfl
@[simp] theorem advance_dmem : (advance s).dmem = s.dmem := rfl
@[simp] theorem advance_status : (advance s).status = s.status := rfl
@[simp] theorem readReg_advance : readReg (advance s) r = readReg s r := rfl

/-! ### writeReg -/
@[simp] theorem writeReg_zero : writeReg s 0 v = s := rfl
@[simp] theorem writeReg_pc : (writeReg s r v).pc = s.pc := by unfold writeReg; split <;> rfl
@[simp] theorem writeReg_hi : (writeReg s r v).hi = s.hi := by unfold writeReg; split <;> rfl
@[simp] theorem writeReg_lo : (writeReg s r v).lo = s.lo := by unfold writeReg; split <;> rfl
@[simp] theorem writeReg_imem : (writeReg s r v).imem = s.imem := by unfold writeReg; split <;> rfl
@[simp] theorem writeReg_dmem : (writeReg s r v).dmem = s.dmem := by unfold writeReg; split <;> rfl
@[simp] theorem writeReg_status : (writeReg s r v).status = s.status := by unfold writeReg; split <;> rfl

/-! ### writeHiLo -/
@[simp] theorem writeHiLo_gpr : (writeHiLo s v v').gpr = s.gpr := rfl
@[simp] theorem writeHiLo_pc : (writeHiLo s v v').pc = s.pc := rfl
@[simp] theorem writeHiLo_hi : (writeHiLo s v v').hi = v := rfl
@[simp] theorem writeHiLo_lo : (writeHiLo s v v').lo = v' := rfl
@[simp] theorem writeHiLo_imem : (writeHiLo s v v').imem = s.imem := rfl
@[simp] theorem writeHiLo_dmem : (writeHiLo s v v').dmem = s.dmem := rfl
@[simp] theorem writeHiLo_status : (writeHiLo s v v').status = s.status := rfl
@[simp] theorem readReg_writeHiLo : readReg (writeHiLo s v v') r = readReg s r := rfl

/-! ### halt -/
@[simp] theorem halt_gpr : (halt s).gpr = s.gpr := rfl
@[simp] theorem halt_pc : (halt s).pc = s.pc := rfl
@[simp] theorem halt_hi : (halt s).hi = s.hi := rfl
@[simp] theorem halt_lo : (halt s).lo = s.lo := rfl
@[simp] theorem halt_imem : (halt s).imem = s.imem := rfl
@[simp] theorem halt_dmem : (halt s).dmem = s.dmem := rfl
@[simp] theorem halt_status : (halt s).status = .halted := rfl
@[simp] theorem readReg_halt : readReg (halt s) r = readReg s r := rfl

/-! ### raiseFault -/
@[simp] theorem raiseFault_gpr : (raiseFault cause word s).gpr = s.gpr := rfl
@[simp] theorem raiseFault_pc : (raiseFault cause word s).pc = s.pc := rfl
@[simp] theorem raiseFault_hi : (raiseFault cause word s).hi = s.hi := rfl
@[simp] theorem raiseFault_lo : (raiseFault cause word s).lo = s.lo := rfl
@[simp] theorem raiseFault_imem : (raiseFault cause word s).imem = s.imem := rfl
@[simp] theorem raiseFault_dmem : (raiseFault cause word s).dmem = s.dmem := rfl
@[simp] theorem raiseFault_status : (raiseFault cause word s).status = .faulted cause s.pc word := rfl
@[simp] theorem readReg_raiseFault : readReg (raiseFault cause word s) r = readReg s r := rfl

end Sys2Proof.Machine
end

