-- ==== Sys2Proof/Laws/Registers.lean ====
section
/-! SUPPORT. What reading and writing general registers can do (spec/10_state.md R21, R22). -/

namespace Sys2Proof.Machine

@[simp] theorem readReg_zero (s : State) : readReg s 0 = 0#32 := rfl

/-- Reading any register other than 0 reads its slot. -/
theorem readReg_of_ne_zero (s : State) {r : Reg} (h : r ≠ 0) : readReg s r = s.gpr[r.val] := by
  simp [readReg, h]

/-- Everything a register write does to a register read. -/
theorem readReg_writeReg (s : State) (rd r : Reg) (v : Word) :
    readReg (writeReg s rd v) r = if r = rd ∧ rd ≠ 0 then v else readReg s r := by
  by_cases h0 : rd = 0
  · simp [h0]
  · by_cases hr : r = rd
    · subst hr
      simp [readReg, writeReg, h0]
    · have hv : rd.val ≠ r.val := fun e => hr (Fin.ext e.symm)
      simp [readReg, writeReg, h0, hr, hv]

/-- No write changes slot 0, so the invariant that it holds 0 is kept. -/
@[simp] theorem writeReg_slot_zero (s : State) (rd : Reg) (v : Word) : (writeReg s rd v).gpr[0] = s.gpr[0] := by
  by_cases h0 : rd = 0
  · simp [h0]
  · have hv : rd.val ≠ 0 := fun e => h0 (Fin.ext e)
    simp [writeReg, h0, hv]

/-- Two states whose registers hold 0 in slot 0 and read alike hold the same register file. -/
theorem gpr_ext {s t : State} (hs : s.gpr[0] = 0#32) (ht : t.gpr[0] = 0#32)
    (h : ∀ r : Reg, readReg s r = readReg t r) : s.gpr = t.gpr := by
  apply Vector.ext
  intro i hi
  rcases Nat.eq_zero_or_pos i with rfl | hpos
  · exact hs.trans ht.symm
  · have hne : (⟨i, hi⟩ : Reg) ≠ 0 := fun e => by
      have := congrArg Fin.val e
      simp at this
      omega
    simpa [readReg_of_ne_zero _ hne] using h ⟨i, hi⟩

end Sys2Proof.Machine
end

