-- ==== Sys2Proof/Laws/Exec.lean ====
section
/-! SUPPORT. What each shared operation of a cycle can do, said once: the fetch, the fetch-and-decode, the meanings and the step. -/

namespace Sys2Proof.Machine

/-! ### writeResult -/

section
variable (s : State) (rd r : Reg) (v : Word)

@[simp] theorem writeResult_pc : (writeResult s rd v).pc = s.pc + 4#32 := by simp [writeResult]
@[simp] theorem writeResult_hi : (writeResult s rd v).hi = s.hi := by simp [writeResult]
@[simp] theorem writeResult_lo : (writeResult s rd v).lo = s.lo := by simp [writeResult]
@[simp] theorem writeResult_imem : (writeResult s rd v).imem = s.imem := by simp [writeResult]
@[simp] theorem writeResult_dmem : (writeResult s rd v).dmem = s.dmem := by simp [writeResult]
@[simp] theorem writeResult_status : (writeResult s rd v).status = s.status := by simp [writeResult]
@[simp] theorem writeResult_slot_zero : (writeResult s rd v).gpr[0] = s.gpr[0] := by simp [writeResult]

theorem readReg_writeResult : readReg (writeResult s rd v) r = if r = rd ∧ rd ≠ 0 then v else readReg s r := by
  simp [writeResult, readReg_writeReg]
end

/-! ### Fetch -/

/-- Everything a fetch can answer (R55). -/
theorem ifetch_cases (policy : FetchPolicy) (imem : Memory) (a : Word) :
    (aligned a = false ∧ ifetch policy imem a = .error .fetchMisaligned) ∨
    (aligned a = true ∧ imemBytes ≤ a.toNat ∧ policy = .fault ∧ ifetch policy imem a = .error .fetchOutOfRange) ∨
    (aligned a = true ∧ imemBytes ≤ a.toNat ∧ policy = .zero ∧ ifetch policy imem a = .ok 0#32) ∨
    (aligned a = true ∧ a.toNat < imemBytes ∧ ifetch policy imem a = .ok (imem.readWord a.toNat)) := by
  cases ha : aligned a
  · exact .inl ⟨rfl, by simp [ifetch, ha]⟩
  · by_cases hr : imemBytes ≤ a.toNat
    · cases policy
      · exact .inr (.inl ⟨rfl, hr, rfl, by simp [ifetch, ha, hr]⟩)
      · exact .inr (.inr (.inl ⟨rfl, hr, rfl, by simp [ifetch, ha, hr]⟩))
    · exact .inr (.inr (.inr ⟨rfl, Nat.not_le.mp hr, by simp [ifetch, ha, hr]⟩))

/-- A fetch that passes both checks reads the word. -/
theorem ifetch_of_fetchable {policy : FetchPolicy} {imem : Memory} {a : Word} (h : fetchable a = true) :
    ifetch policy imem a = .ok (imem.readWord a.toNat) := by
  simp only [fetchable, Bool.and_eq_true, decide_eq_true_eq] at h
  have hr : ¬ imemBytes ≤ a.toNat := Nat.not_le.mpr h.2
  simp [ifetch, h.1, hr]

/-- A placed word is the one the next step fetches, whatever the state was. -/
theorem ifetch_placeFetchWord {policy : FetchPolicy} {s : State} (hm : s.imem.wf = true) (w : Word) :
    (placeFetchWord s w).status = .running ∧
    ifetch policy (placeFetchWord s w).imem (placeFetchWord s w).pc = .ok w := by
  have hf : fetchable (placeFetchWord s w).pc = true := by
    unfold placeFetchWord
    by_cases h : fetchable s.pc = true
    · simp [h]
    · rw [if_neg h]
      exact show fetchable 0#32 = true by decide
  refine ⟨rfl, ?_⟩
  rw [ifetch_of_fetchable hf]
  simp [placeFetchWord, Memory.readWord, Memory.read_writeWord hm]

/-- Fetch and decode depend on the instruction memory and the pc alone. -/
theorem fetchDecode_congr {policy : FetchPolicy} {s t : State} (hi : t.imem = s.imem) (hp : t.pc = s.pc) :
    fetchDecode policy t = fetchDecode policy s := by
  simp [fetchDecode, hi, hp]

/-- Everything a failing fetch and decode can report (R241): a fetch fault without a word, or a decode fault with it. -/
theorem fetchDecode_error_cases {policy : FetchPolicy} {s : State} {cause : Fault} {word : Option Word}
    (h : fetchDecode policy s = .error (cause, word)) :
    (aligned s.pc = false ∧ cause = .fetchMisaligned ∧ word = none) ∨
    (aligned s.pc = true ∧ imemBytes ≤ s.pc.toNat ∧ policy = .fault ∧ cause = .fetchOutOfRange ∧ word = none) ∨
    (∃ w e, ifetch policy s.imem s.pc = .ok w ∧ decodeWord w = .error e ∧ cause = faultOfDecode e ∧ word = some w) := by
  unfold fetchDecode at h
  rcases ifetch_cases policy s.imem s.pc with ⟨ha, he⟩ | ⟨ha, hr, hp, he⟩ | ⟨ha, hr, hp, he⟩ | ⟨ha, hr, he⟩
  · rw [he] at h
    cases h
    exact .inl ⟨ha, rfl, rfl⟩
  · rw [he] at h
    cases h
    exact .inr (.inl ⟨ha, hr, hp, rfl, rfl⟩)
  all_goals
    rw [he] at h
    simp only at h
    split at h
    · next e hd =>
      cases h
      exact .inr (.inr ⟨_, e, he, hd, rfl, rfl⟩)
    · cases h

/-- A fetched and decoded instruction comes from a fetched word. -/
theorem fetchDecode_ok_iff {policy : FetchPolicy} {s : State} {i : Instr} :
    fetchDecode policy s = .ok i ↔ ∃ w, ifetch policy s.imem s.pc = .ok w ∧ decodeWord w = .ok i := by
  unfold fetchDecode
  cases ifetch policy s.imem s.pc with
  | error c => simp
  | ok w => cases hd : decodeWord w <;> simp [hd]

/-- The decoder never yields the assembler's names. -/
theorem decodeWord_ne_nop (w : Word) : decodeWord w ≠ .ok .nop := by
  unfold decodeWord
  repeat' split
  all_goals simp

theorem decodeWord_ne_move (w : Word) (rd rs : Reg) (shamt : BitVec 5) : decodeWord w ≠ .ok (.move rd rs shamt) := by
  unfold decodeWord
  repeat' split
  all_goals simp

/-! ### Alignment -/

theorem aligned_iff (a : Word) : aligned a = true ↔ a.toNat % 4 = 0 := by
  simp only [aligned, beq_iff_eq, ← BitVec.toNat_inj, BitVec.extractLsb'_toNat]
  simp

theorem toNat_shiftLeft_two (x : Word) : (x <<< 2).toNat = x.toNat * 4 % 2 ^ 32 := by
  simp [BitVec.toNat_shiftLeft, Nat.shiftLeft_eq]

/-- The three next-pc candidates in numbers (R150). -/
theorem toNat_seqPc (pc : Word) : (seqPc pc).toNat = (pc.toNat + 4) % 2 ^ 32 := by
  simp [seqPc, BitVec.toNat_add]

theorem toNat_branchTarget (pc : Word) (imm : BitVec 16) :
    (branchTarget pc imm).toNat = (pc.toNat + 4 + (signExtend32 imm).toNat * 4) % 2 ^ 32 := by
  rw [branchTarget, BitVec.toNat_add, toNat_seqPc, toNat_shiftLeft_two]
  omega

theorem toNat_jumpTarget (pc : Word) (target : BitVec 26) :
    (jumpTarget pc target).toNat = pc.toNat / 2 ^ 28 * 2 ^ 28 + target.toNat * 4 := by
  change @BitVec.toNat (4 + 26 + 2) (pc.extractLsb' 28 4 ++ target ++ 0b00#2) = _
  rw [toNat_append_eq, toNat_append_eq, BitVec.extractLsb'_toNat, Nat.shiftRight_eq_div_pow]
  have := pc.isLt
  simp only [BitVec.toNat_ofNat]
  omega

/-! ### The meanings -/

/-- Everything an instruction can do: it halts, or it writes one register and goes on, or it writes HI and LO and goes on, or it
only moves the pc to one of the three candidates. -/
theorem exec_cases (i : Instr) (s : State) :
    ((i = .nop ∨ i = .haltSentinel) ∧ exec i s = .next (halt s)) ∨
    (∃ rd v, exec i s = .next (writeResult s rd v)) ∨
    (∃ rs rt rdField shamt hi lo, i = .mult rs rt rdField shamt ∧ exec i s = .next (advance (writeHiLo s hi lo))) ∨
    (∃ target, ((∃ imm, target = branchTarget s.pc imm) ∨ target = seqPc s.pc ∨ (∃ t, target = jumpTarget s.pc t)) ∧
      exec i s = .next (setPc s target)) := by
  cases i with
  | add rd rs rt shamt => exact .inr (.inl ⟨rd, _, rfl⟩)
  | move rd rs shamt => exact .inr (.inl ⟨rd, _, rfl⟩)
  | mult rs rt rdField shamt => exact .inr (.inr (.inl ⟨rs, rt, rdField, shamt, _, _, rfl, rfl⟩))
  | mflo rd a b c => exact .inr (.inl ⟨rd, _, rfl⟩)
  | nop => exact .inl ⟨.inl rfl, rfl⟩
  | haltSentinel => exact .inl ⟨.inr rfl, rfl⟩
  | addi rt rs imm => exact .inr (.inl ⟨rt, _, rfl⟩)
  | beq rs rt off =>
    refine .inr (.inr (.inr ⟨_, ?_, rfl⟩))
    split
    · exact .inl ⟨_, rfl⟩
    · exact .inr (.inl rfl)
  | j target => exact .inr (.inr (.inr ⟨_, .inr (.inr ⟨_, rfl⟩), rfl⟩))

/-! ### The step -/

/-- Everything a step can do: nothing, take a fault, or run the decoded instruction. -/
theorem stepUnder_cases (policy : FetchPolicy) (s : State) :
    (s.status ≠ .running ∧ stepUnder policy s = .next s) ∨
    (∃ cause word, s.status = .running ∧ fetchDecode policy s = .error (cause, word) ∧
      stepUnder policy s = .next (raiseFault cause word s)) ∨
    (∃ i, s.status = .running ∧ fetchDecode policy s = .ok i ∧ stepUnder policy s = exec i s) := by
  by_cases hr : s.status = .running
  · cases hf : fetchDecode policy s with
    | error e => exact .inr (.inl ⟨e.1, e.2, hr, rfl, by simp [stepUnder, hr, hf]⟩)
    | ok i => exact .inr (.inr ⟨i, hr, rfl, by simp [stepUnder, hr, hf]⟩)
  · exact .inl ⟨hr, by simp [stepUnder, hr]⟩

theorem stepUnder_of_error {policy : FetchPolicy} {s : State} {cause : Fault} {word : Option Word}
    (hr : s.status = .running) (hf : fetchDecode policy s = .error (cause, word)) :
    stepUnder policy s = .next (raiseFault cause word s) := by
  simp [stepUnder, hr, hf]

theorem stepUnder_of_ok {policy : FetchPolicy} {s : State} {i : Instr}
    (hr : s.status = .running) (hf : fetchDecode policy s = .ok i) : stepUnder policy s = exec i s := by
  simp [stepUnder, hr, hf]

theorem stepUnder_of_ended {policy : FetchPolicy} {s : State} (hr : s.status ≠ .running) :
    stepUnder policy s = .next s := by
  simp [stepUnder, hr]

theorem step_eq (s : State) : step s = stepUnder fetchOorPolicy s := rfl

/-- `stepState` is what a step answers. -/
theorem stepState_of_next {s t : State} (h : step s = .next t) : stepState s = t := by
  simp [stepState, h]

end Sys2Proof.Machine
end

