-- ==== Sys2Proof/Laws/Host.lean ====
section
/-! SUPPORT. What the host's bounded run and its report answer, once each, so that later proofs cite these. -/

namespace Sys2Proof.Machine

/-- A bound of 0 does no cycle. -/
@[simp] theorem runUntilHalt_zero (s : State) : runUntilHalt 0 s = (s, 0) := rfl

/-- A run that has ended does no cycle. -/
theorem runUntilHalt_of_ended {s : State} (h : s.status ≠ .running) (bound : Nat) : runUntilHalt bound s = (s, 0) := by
  cases bound with
  | zero => rfl
  | succ n => simp [runUntilHalt, h]

/-- A RUNNING machine does one cycle and goes on with the rest of the bound. -/
theorem runUntilHalt_succ_of_running {s : State} (h : s.status = .running) (bound : Nat) :
    runUntilHalt (bound + 1) s = ((runUntilHalt bound (stepState s)).1, (runUntilHalt bound (stepState s)).2 + 1) := by
  simp [runUntilHalt, h]

/-- A machine has no exit status exactly while it is RUNNING. -/
theorem exitOfStatus_eq_none_iff {status : Status} : exitOfStatus status = none ↔ status = .running := by
  cases status <;> simp [exitOfStatus]

/-- The report of a session whose machine is RUNNING: a pause. -/
theorem report_of_running {h : Session} (hr : h.machine.status = .running) : report h = .paused h := by
  simp [report, hr, exitOfStatus]

/-- The report of a session whose run has ended: the exit status and the dump of its machine. -/
theorem report_of_exit {h : Session} {exit : ExitStatus} (he : exitOfStatus h.machine.status = some exit) :
    report h = .ended exit (registerDump h.machine) h := by
  simp [report, he]

/-- The exit status of a report is that of the machine's status. -/
@[simp] theorem report_exit (h : Session) : (report h).exit = exitOfStatus h.machine.status := by
  cases he : exitOfStatus h.machine.status with
  | none => rw [report_of_running (exitOfStatus_eq_none_iff.mp he)]; rfl
  | some exit => rw [report_of_exit he]; rfl

/-- A run starts exactly when both images loaded, from the reset of the next launch with those memories (R273). -/
theorem startRun_ok_iff {h h' : Session} {im dm : Except LoadError Memory} : startRun h im dm = .ok h' ↔
    ∃ i d, im = .ok i ∧ dm = .ok d ∧
      h' = ⟨{ State.resetOfLaunch (h.launch + 1) with imem := i, dmem := d }, false, h.launch + 1⟩ := by
  cases im <;> cases dm <;> simp [startRun, resetSession, eq_comm]

/-- A refused instruction image starts no run. -/
@[simp] theorem startRun_imem_error (h : Session) (why : LoadError) (dm : Except LoadError Memory) :
    startRun h (.error why) dm = .error (.load why) := by
  cases dm <;> rfl

/-- A refused data image starts no run either. -/
@[simp] theorem startRun_dmem_error (h : Session) (m : Memory) (why : LoadError) :
    startRun h (.ok m) (.error why) = .error (.load why) := rfl

/-- A failed boot drives nothing. -/
@[simp] theorem driveFrom_error (why : BootFailure) (bound : Nat) : driveFrom (.error why) bound = .noRun why := rfl

/-- A booted session is driven by one bounded run. -/
@[simp] theorem driveFrom_ok (h : Session) (bound : Nat) :
    driveFrom (.ok h) bound = report (hostCall h (.runUntilHalt bound)).1 := rfl

end Sys2Proof.Machine
end

