-- ==== Sys2Proof/Laws/PerInstr.lean ====
section
/-! SUPPORT. Statements made per instruction: what holds of each constructor as syntax. -/

namespace Sys2Proof.Laws

/-- The opcode each mnemonic's layout carries (spec/30_encoding.md R90). -/
def opcodeOfInstr : Instr → BitVec 6
  | .add _ _ _ _ => opcRtype
  | .move _ _ _ => opcRtype
  | .mult _ _ _ _ => opcRtype
  | .mflo _ _ _ _ => opcRtype
  | .nop => opcRtype
  | .haltSentinel => opcRtype
  | .addi _ _ _ => opcAddi
  | .beq _ _ _ => opcBeq
  | .j _ => opcJ

/-- The composed word of an instruction carries the opcode of its layout, and encoding answers that word whenever every
argument fits (R85, R90). -/
def OpcodeField.Statement (i : Instr) : Prop :=
  opcodeOf (encodeFields i) = opcodeOfInstr i ∧ (i.wellFormed = true → encode i = some (encodeFields i))

theorem encode_of_wellFormed {i : Instr} (h : i.wellFormed = true) : encode i = some (encodeFields i) := by
  simp [encode, h]

theorem opcodeOf_encR (rs rt rd shamt : BitVec 5) (funct : BitVec 6) :
    opcodeOf (encR rs rt rd shamt funct) = opcRtype := by
  apply BitVec.eq_of_toNat_eq
  rw [toNat_opcodeOf, toNat_encR, opcRtype, BitVec.toNat_ofNat]
  omega

theorem opcodeOf_encI (op : BitVec 6) (rs rt : BitVec 5) (imm : BitVec 16) : opcodeOf (encI op rs rt imm) = op := by
  apply BitVec.eq_of_toNat_eq
  rw [toNat_opcodeOf, toNat_encI]
  omega

theorem opcodeOf_encJ (op : BitVec 6) (target : BitVec 26) : opcodeOf (encJ op target) = op := by
  apply BitVec.eq_of_toNat_eq
  rw [toNat_opcodeOf, toNat_encJ]
  omega

theorem OpcodeField.add (rd rs rt : Reg) (shamt : BitVec 5) : OpcodeField.Statement (.add rd rs rt shamt) :=
  ⟨opcodeOf_encR _ _ _ _ _, encode_of_wellFormed⟩
theorem OpcodeField.move (rd rs : Reg) (shamt : BitVec 5) : OpcodeField.Statement (.move rd rs shamt) :=
  ⟨opcodeOf_encR _ _ _ _ _, encode_of_wellFormed⟩
theorem OpcodeField.mult (rs rt : Reg) (rdField shamt : BitVec 5) :
    OpcodeField.Statement (.mult rs rt rdField shamt) :=
  ⟨opcodeOf_encR _ _ _ _ _, encode_of_wellFormed⟩
theorem OpcodeField.mflo (rd : Reg) (rsField rtField shamt : BitVec 5) :
    OpcodeField.Statement (.mflo rd rsField rtField shamt) :=
  ⟨opcodeOf_encR _ _ _ _ _, encode_of_wellFormed⟩
theorem OpcodeField.nop : OpcodeField.Statement .nop :=
  ⟨opcodeOf_encR _ _ _ _ _, encode_of_wellFormed⟩
theorem OpcodeField.haltSentinel : OpcodeField.Statement .haltSentinel :=
  ⟨by decide, encode_of_wellFormed⟩
theorem OpcodeField.addi (rt rs : Reg) (imm : Int) : OpcodeField.Statement (.addi rt rs imm) :=
  ⟨opcodeOf_encI _ _ _ _, encode_of_wellFormed⟩
theorem OpcodeField.beq (rs rt : Reg) (off : Int) : OpcodeField.Statement (.beq rs rt off) :=
  ⟨opcodeOf_encI _ _ _ _, encode_of_wellFormed⟩
theorem OpcodeField.j (target : Nat) : OpcodeField.Statement (.j target) :=
  ⟨opcodeOf_encJ _ _, encode_of_wellFormed⟩

end Sys2Proof.Laws
end

