-- ==== Sys2Proof/Tests/Slice0.lean ====
section
/-! SUPPORT. Own tests: expected values are the spec's (spec/95_test_vectors.md unless said otherwise), never the model's own
output. After them, a concrete state and operands that meet the hypotheses of each statement. -/

namespace Sys2Proof.Tests

open Sys2Proof.Machine

/-- A small running state: `w` at `pc`, everything else 0. -/
def stateAt (pc w : Word) : State :=
  { gpr := Vector.replicate 32 0#32, pc := pc, hi := 0#32, lo := 0#32, imem := Memory.writeWord [] pc.toNat w,
    dmem := [], status := .running }

/-- `s` with one more register set. -/
def withReg (s : State) (r : Reg) (v : Word) : State := { s with gpr := s.gpr.set r.val v }

/-- The register, pc and status after one step. -/
def afterStep (s : State) (r : Reg) : Word × Word × Status :=
  (readReg (stepState s) r, (stepState s).pc, (stepState s).status)

/-! ### Well-formedness: an ill-formed term for each check (R85, D20) -/

theorem test_wf_addi_high : (Instr.addi 8 0 32768).wellFormed = false ∧ encode (.addi 8 0 32768) = none := by decide
theorem test_wf_addi_low : (Instr.addi 8 0 (-32769)).wellFormed = false := by decide
theorem test_wf_addi_edges : (Instr.addi 8 0 32767).wellFormed = true ∧ (Instr.addi 8 0 (-32768)).wellFormed = true := by
  decide
theorem test_wf_beq : (Instr.beq 0 0 32768).wellFormed = false ∧ encode (.beq 0 0 (-32769)) = none := by decide
theorem test_wf_j : (Instr.j 67108864).wellFormed = false ∧ (Instr.j 67108863).wellFormed = true := by decide

/-! ### Decoding, words from sections 1 and 2 -/

theorem test_decode_add : decodeWord 0x01095020#32 = .ok (.add 10 8 9 0) := by decide
theorem test_decode_add_shamt : decodeWord 0x000007E0#32 = .ok (.add 0 0 0 31) := by decide
theorem test_decode_move : decodeWord 0x01408020#32 = .ok (.add 16 10 0 0) := by decide
theorem test_decode_mult : decodeWord 0x0085F818#32 = .ok (.mult 4 5 31 0) := by decide
theorem test_decode_mflo : decodeWord 0x03FF1012#32 = .ok (.mflo 2 31 31 0) := by decide
theorem test_decode_sentinel : decodeWord 0x00000000#32 = .ok .haltSentinel := by decide
theorem test_decode_addi : decodeWord 0x20128000#32 = .ok (.addi 18 0 (-32768)) := by decide
theorem test_decode_beq : decodeWord 0x1140FFFD#32 = .ok (.beq 10 0 (-3)) := by decide
theorem test_decode_j : decodeWord 0x08000010#32 = .ok (.j 16) := by decide
theorem test_decode_illegal_funct : decodeWord 0x00000040#32 = .error .illegalFunct ∧
    decodeWord 0x0000000C#32 = .error .illegalFunct := by decide
theorem test_decode_illegal_opcode : decodeWord 0x8C000000#32 = .error .illegalOpcode ∧
    decodeWord 0x14000000#32 = .error .illegalOpcode := by decide
theorem test_decode_bytes : decodeBytes [0x20#8, 0x08#8, 0xFF#8, 0xFF#8, 0x12#8] = .ok (.addi 8 0 (-1), [0x12#8]) ∧
    decodeBytes [0x20#8, 0x08#8, 0xFF#8] = .error .truncated := by decide
theorem test_table_word : decodeTableWord 32 0x08000010 = some (.j 16) ∧ decodeTableWord 32 0xFC000000 = none := by decide

/-! ### Encoding (R110 to R117) -/

theorem test_encode_add : encode (.add 10 8 9 0) = some 0x01095020#32 := by decide
theorem test_encode_move : encode (.move 16 10 0) = some 0x01408020#32 := by decide
theorem test_encode_mult : encode (.mult 4 5 0 0) = some 0x00850018#32 := by decide
theorem test_encode_mflo : encode (.mflo 2 0 0 0) = some 0x00001012#32 := by decide
theorem test_encode_nop : encode .nop = some 0#32 := by decide
theorem test_encode_addi : encode (.addi 8 0 (-1)) = some 0x2008FFFF#32 := by decide
theorem test_encode_beq : encode (.beq 10 0 (-3)) = some 0x1140FFFD#32 := by decide
theorem test_encode_j : encode (.j 16) = some 0x08000010#32 := by decide

/-- R5: the parameters are distinct where they must be. -/
theorem test_numbers_distinct : [opcRtype, opcAddi, opcBeq, opcJ].Nodup ∧
    [functAdd, functMult, functMflo, functNop].Nodup := by decide

/-! ### One step, values from section 2 -/

/-- 2.2: signed overflow wraps; `add $t0, $t0, $t0` reads the old value. -/
theorem test_add_doubles : afterStep (withReg (stateAt 0#32 0x01084020#32) 8 0x40000000#32) 8 =
    (0x80000000#32, 4#32, .running) := by decide
/-- W5: a write to register 0 is discarded. -/
theorem test_add_zero : afterStep (withReg (stateAt 0#32 0x01080020#32) 8 5#32) 0 = (0#32, 4#32, .running) := by decide
/-- 2.2: `move $s0, $t2`. -/
theorem test_move : afterStep (withReg (stateAt 0#32 0x01408020#32) 10 0xDEADBEEF#32) 16 =
    (0xDEADBEEF#32, 4#32, .running) := by decide
/-- W2. -/
theorem test_addi_minus_one : afterStep (stateAt 0#32 0x2008FFFF#32) 8 = (0xFFFFFFFF#32, 4#32, .running) := by decide
/-- 2.3: no overflow trap. -/
theorem test_addi_overflow : afterStep (withReg (stateAt 0#32 0x21280001#32) 9 0x7FFFFFFF#32) 8 =
    (0x80000000#32, 4#32, .running) := by decide
/-- 2.4: −2 × 3, and the `rd` field ignored. -/
theorem test_mult_negative :
    (stepState (withReg (withReg (stateAt 0#32 0x0085F818#32) 4 0xFFFFFFFE#32) 5 3#32)).hi = 0xFFFFFFFF#32 ∧
    (stepState (withReg (withReg (stateAt 0#32 0x0085F818#32) 4 0xFFFFFFFE#32) 5 3#32)).lo = 0xFFFFFFFA#32 ∧
    readReg (stepState (withReg (withReg (stateAt 0#32 0x0085F818#32) 4 0xFFFFFFFE#32) 5 3#32)) 31 = 0#32 := by decide
/-- 2.4: the corner rows. -/
theorem test_mul_unit_corners : mulUnit 0x80000000#32 0x80000000#32 = (0x40000000#32, 0#32) ∧
    mulUnit 0x80000000#32 0xFFFFFFFF#32 = (0#32, 0x80000000#32) ∧
    mulUnit 0x7FFFFFFF#32 0x80000000#32 = (0xC0000000#32, 0x80000000#32) := by decide
/-- 2.4: `mflo $v0` with `rs = rt = 31`. -/
theorem test_mflo : afterStep { stateAt 0#32 0x03FF1012#32 with lo := 0xC0008000#32 } 2 =
    (0xC0008000#32, 4#32, .running) := by decide
/-- R192: `mflo` right after reset gives LO_RESET, whatever it is. -/
theorem test_mflo_after_reset : readReg (stepState (State.reset.withFetchWord 32 0x00001012)) 2 = Config.loReset 0 := by
  rfl
/-- 2.5: taken at 0x0C with −3; the wrap at 0x00 with −2. -/
theorem test_beq_taken : afterStep (stateAt 0x0C#32 0x1140FFFD#32) 10 = (0#32, 4#32, .running) ∧
    afterStep (stateAt 0#32 0x1000FFFE#32) 10 = (0#32, 0xFFFFFFFC#32, .running) := by decide
/-- 2.5: 0x80000000 and 0x7FFFFFFF differ. -/
theorem test_beq_not_taken :
    afterStep (withReg (withReg (stateAt 0x0C#32 0x112AFFFD#32) 9 0x80000000#32) 10 0x7FFFFFFF#32) 0 =
      (0#32, 0x10#32, .running) := by decide
/-- 2.6. -/
theorem test_j : afterStep (stateAt 0x14#32 0x08000002#32) 0 = (0#32, 8#32, .running) ∧
    afterStep (stateAt 0xFFC#32 0x08000400#32) 0 = (0#32, 0x1000#32, .running) := by decide
/-- D21: the old pc's top four bits, not those of pc + 4. -/
theorem test_j_upper_bits : jumpTarget 0x1FFFFFFC#32 2#26 = 0x10000008#32 := by decide
/-- R230's worked example. -/
theorem test_sentinel : afterStep (stateAt 0x14#32 0#32) 0 = (0#32, 0x14#32, .halted) := by decide
/-- R231's worked example, and the case FUNCT_NOP = 1. -/
theorem test_nop : exec .nop (stateAt 8#32 0#32) = .next { stateAt 8#32 0#32 with status := .halted } ∧
    nopUnder 1#6 (stateAt 8#32 1#32) =
      { stateAt 8#32 1#32 with status := .faulted .illegalFunct 8#32 (some 1#32) } := ⟨rfl, by decide⟩
/-- P7a. -/
theorem test_illegal_opcode : afterStep (stateAt 4#32 0xFC000000#32) 0 =
    (0#32, 4#32, .faulted .illegalOpcode 4#32 (some 0xFC000000#32)) := by decide
/-- 2.8: the fetch checks, alignment first; and the other policy. -/
theorem test_fetch_checks : ifetch .fault [] 0x1002#32 = .error .fetchMisaligned ∧
    ifetch .fault [] 0x1000#32 = .error .fetchOutOfRange ∧ ifetch .zero [] 0x1000#32 = .ok 0#32 ∧
    ifetch .fault [(0xFFC, 0x12#8)] 0xFFC#32 = .ok 0x12000000#32 := by decide
/-- W8. -/
theorem test_data_misaligned : dataRead [] 6#32 = .error ⟨.dataMisaligned, 6#32⟩ ∧
    dataWrite [] 0xFFE#32 1#32 = .error ⟨.dataMisaligned, 0xFFE#32⟩ := by decide
/-- 2.8: `load_dmem` then `read_dmem`. -/
theorem test_load_dmem :
    (hostCall (hostCall Session.initial (.loadDmem [0#8, 0#8, 0#8, 0#8, 0x11#8, 0x22#8, 0x33#8, 0x44#8])).1
      (.readDmem 4#32)).2 = .word 0x11223344#32 := by decide
/-- R272: one byte a line. -/
theorem test_persisted_line : byteOfLine "00100000".toList = some 0x20#8 ∧ byteOfLine "0010000".toList = none ∧
    byteOfLine "0010000x".toList = none := by decide

/-! ### The assembler, section 3 and 30_encoding.md -/

/-- P3: labels, a backward branch, comments and blanks. -/
theorem test_assemble_p3 : assemble (linesOfText
    "  # P3\n  addi $t1, $zero, -2\nloop:\n  addi $t1, $t1, 1\n\n  addi $t2, $t1, 1\n  beq $t2, $zero, loop\n".toList) =
    .ok [0x2009FFFE#32, 0x21290001#32, 0x212A0001#32, 0x1140FFFD#32] := by decide
/-- P5: a forward jump and a literal offset. -/
theorem test_assemble_p5 : assemble (linesOfText
    "j skip\naddi $t0, $zero, 1\nskip:\naddi $t1, $zero, 7\nbeq $t1, $t1, 1".toList) =
    .ok [0x08000002#32, 0x20080001#32, 0x20090007#32, 0x11290001#32] := by decide
/-- R102, R105, R107, R108, R115: each error is reported with its line and address, and there is no image. -/
theorem test_assemble_errors : assemble (linesOfText
    "add $t0, $t1\nsub $t0, $t1, $t2\nmove $8, $t0\naddi $t0, $zero, 32768\nj nowhere\na: nop\nb:\nb:".toList) =
    .error [⟨1, 0, .operandCount 3 2⟩, ⟨2, 4, .unknownMnemonic⟩, ⟨3, 8, .unknownRegister "$8".toList⟩,
      ⟨4, 12, .outOfRange⟩, ⟨5, 16, .undefinedLabel "nowhere".toList⟩, ⟨6, 20, .badLabel⟩,
      ⟨8, 20, .duplicateLabel⟩] := by decide
/-- R117: a `j` literal is a byte address, a multiple of 4. -/
theorem test_assemble_j_literal : assemble [("j 4096".toList)] = .ok [0x08000400#32] ∧
    assemble [("j 2".toList)] = .error [⟨1, 0, .badJumpAddress⟩] := by decide

/-! ### Witnesses: states and operands that meet the hypotheses of each statement, at the edges of their ranges -/

theorem witness_FieldsOfComposedWords : (-32768 : Int) ≤ -32768 ∧ (32767 : Int) ≤ 32767 := by decide
theorem witness_DecodeOfEncode : encode (.j 67108863) = some 0x0BFFFFFF#32 := by decide
theorem witness_EncodeOfDecode : decodeWord 0x03FF1012#32 = .ok (.mflo 2 31 31 0) := by decide
theorem witness_IllegalWordsRaiseTheirFault :
    (stateAt 4#32 0xFC000000#32).status = .running ∧
    ifetch fetchOorPolicy (stateAt 4#32 0xFC000000#32).imem 4#32 = .ok 0xFC000000#32 ∧
    decodeWord 0xFC000000#32 = .error .illegalOpcode ∧
    ifetch fetchOorPolicy (stateAt 0xFFC#32 0x00000001#32).imem 0xFFC#32 = .ok 0x00000001#32 ∧
    decodeWord 0x00000001#32 = .error .illegalFunct ∧
    ifetch fetchOorPolicy (stateAt 0#32 0#32).imem 0#32 = .ok 0#32 := by decide
theorem witness_DecoderFollowsTheTable : coreRows.map (fun r => r.hits 0x2008FFFF#32) =
    [false, false, false, false, true, false, false] ∧ decodeWord 0x2008FFFF#32 = .ok (.addi 8 0 (-1)) := by decide
theorem witness_UnusedFieldsDoNotMatter : decodeWord 0x00850018#32 = .ok (.mult 4 5 0 0) ∧
    0x00850018#32 &&& usedMask (.mult 4 5 0 0) = 0x0085F818#32 &&& usedMask (.mult 4 5 0 0) := by decide

/-- A state that meets the invariant, and is not the reset state. -/
theorem stateAt_inv : (stateAt 0xFFC#32 0x2008FFFF#32).Inv :=
  ⟨by decide, by decide, by decide, by decide, by decide, by decide, trivial⟩
theorem witness_StepKeepsTheInvariant :
    (stateAt 0xFFC#32 0x2008FFFF#32).Inv ∧ ∃ t, step (stateAt 0xFFC#32 0x2008FFFF#32) = .next t := ⟨stateAt_inv, _, rfl⟩
theorem witness_BootMeetsTheInvariant :
    ∃ h', boot Session.initial ["addi $t0, $zero, 1".toList] [0x11#8] = .ok h' := ⟨_, rfl⟩
theorem witness_HostCallsKeepTheInvariant : Session.Inv ⟨stateAt 0xFFC#32 0x2008FFFF#32, true, 0⟩ :=
  ⟨stateAt_inv, fun h => nomatch h⟩
theorem witness_StepRunsTheDecodedInstruction :
    (stateAt 0xFFC#32 0x2008FFFF#32).status = .running ∧ (0xFFC#32).toNat % 4 = 0 ∧ (0xFFC#32).toNat < 4096 ∧
    decodeBytes [(stateAt 0xFFC#32 0x2008FFFF#32).imem.read 0xFFC, (stateAt 0xFFC#32 0x2008FFFF#32).imem.read 0xFFD,
      (stateAt 0xFFC#32 0x2008FFFF#32).imem.read 0xFFE, (stateAt 0xFFC#32 0x2008FFFF#32).imem.read 0xFFF] =
      .ok (.addi 8 0 (-1), []) := by decide
/-- Each clause of R245's order at an edge of its range. -/
theorem witness_FaultsComeInOrder :
    (afterStep (stateAt 0x1002#32 0#32) 0).2.2 = .faulted .fetchMisaligned 0x1002#32 none ∧
    (afterStep (stateAt 0x1000#32 0#32) 0).2.2 = .faulted .fetchOutOfRange 0x1000#32 none ∧
    (afterStep (stateAt 0xFFC#32 0#32) 0).2.2 = .halted ∧
    (afterStep (stateAt 0xFFC#32 0xFC000000#32) 0).2.2 = .faulted .illegalOpcode 0xFFC#32 (some 0xFC000000#32) ∧
    (afterStep (stateAt 0xFFC#32 0x0000003F#32) 0).2.2 = .faulted .illegalFunct 0xFFC#32 (some 0x0000003F#32) ∧
    (afterStep (stateAt 0xFFC#32 0x00000020#32) 0).2.2 = .running := by decide
theorem witness_FaultsArePrecise :
    (stateAt 0x1000#32 0#32).status = .running ∧ ∃ t, step (stateAt 0x1000#32 0#32) = .next t ∧
      t.status = .faulted .fetchOutOfRange 0x1000#32 none := ⟨rfl, _, rfl, by decide⟩
theorem witness_EndedRunsStayAsTheyAre :
    (halt (stateAt 0#32 0#32)).status ≠ .running ∧
    (raiseFault .illegalOpcode none (stateAt 0#32 0#32)).status ≠ .running := by decide
theorem witness_FetchBeyondCapacityUnderEachPolicy :
    (stateAt 0x1000#32 0#32).status = .running ∧ (stateAt 0x1000#32 0#32).pc.toNat % 4 = 0 ∧
    4096 ≤ (stateAt 0x1000#32 0#32).pc.toNat := by decide
theorem witness_NoInstructionTouchesAMemory :
    (∃ t, exec (.j 1) (stateAt 0#32 0#32) = .next t) ∧ controlRow opcJ ≠ none ∧
    ∃ t, step (stateAt 2#32 0#32) = .next t ∧ t.status = .faulted .fetchMisaligned 2#32 none :=
  ⟨⟨_, rfl⟩, by decide, _, rfl, by decide⟩
theorem witness_OnlyMultWritesHiLo :
    ∃ t, step (withReg (stateAt 0#32 0x00840018#32) 4 3#32) = .next t ∧ t.lo ≠ 0#32 := ⟨_, rfl, by decide⟩
theorem witness_LoIsReadByMfloAlone (rd : Reg) (a b c : BitVec 5) :
    fetchDecode fetchOorPolicy (stateAt 0#32 0x00840018#32) ≠ .ok (.mflo rd a b c) := by
  have h : fetchDecode fetchOorPolicy (stateAt 0#32 0x00840018#32) = .ok (.mult 4 4 0 0) := by decide
  rw [h]
  simp
theorem witness_OneRegisterPerCycle :
    ∃ t, step (stateAt 0#32 0x2008FFFF#32) = .next t ∧ readReg t 8 = 0xFFFFFFFF#32 := ⟨_, rfl, by decide⟩
theorem witness_PcStaysAligned : aligned (stateAt 0xFFFFFFFC#32 0#32).pc = true ∧
    (stateAt 0xFFFFFFFC#32 0#32).status = .running := by decide
theorem witness_AddiAddsTheImmediate : (-32768 : Int) ≤ -32768 ∧ (-32768 : Int) ≤ 32767 ∧ (-32768 : Int) ≤ 32767 ∧
    ∃ t, exec (.addi 8 0 (-32768)) (stateAt 0#32 0#32) = .next t ∧ readReg t 8 = 0xFFFF8000#32 :=
  ⟨by decide, by decide, by decide, _, rfl, by decide⟩
theorem witness_BeqBranchesWhenEqual :
    (∃ t, exec (.beq 0 0 (-32768)) (stateAt 0#32 0#32) = .next t ∧ t.pc = 0xFFFE0004#32) ∧
    ∃ t, exec (.beq 0 0 32767) (stateAt 0x10#32 0#32) = .next t ∧ t.pc = 0x00020010#32 :=
  ⟨⟨_, rfl, by decide⟩, _, rfl, by decide⟩
theorem witness_JumpGoesToItsTarget : 67108863 < 2 ^ 26 ∧
    ∃ t, exec (.j 67108863) (stateAt 0#32 0#32) = .next t ∧ t.pc = 0x0FFFFFFC#32 := ⟨by decide, _, rfl, by decide⟩
theorem witness_SentinelAndNopHalt : (Instr.nop = .haltSentinel ∨ Instr.nop = .nop) := .inr rfl
theorem witness_NopUnderEachNopCode :
    (∀ f ∈ [functAdd, functMult, functMflo], (1#6 : BitVec 6) ≠ f) ∧ (stateAt 8#32 1#32).status = .running ∧
    ifetch fetchOorPolicy (stateAt 8#32 1#32).imem 8#32 = .ok (encR 0#5 0#5 0#5 0#5 1#6) := by decide
theorem witness_SelfLoopsKeepTheState : (stateAt 0xFFFFFFFC#32 0#32).pc.toNat % 4 = 0 := by decide
theorem witness_PcUpdateSelectsByPriority : (stateAt 0xFFC#32 0x08000400#32).status = .running ∧
    ifetch fetchOorPolicy (stateAt 0xFFC#32 0x08000400#32).imem 0xFFC#32 = .ok 0x08000400#32 ∧
    decodeWord 0x08000400#32 = .ok (.j 1024) ∧ 0x08000400#32 ≠ 0#32 := by decide
theorem witness_PcUpdateSelectsByPriority_beq : ifetch fetchOorPolicy (stateAt 0xFFC#32 0x1000FFFD#32).imem 0xFFC#32 =
      .ok 0x1000FFFD#32 ∧ decodeWord 0x1000FFFD#32 = .ok (.beq 0 0 (-3)) ∧
    ifetch fetchOorPolicy (stateAt 0#32 0x00000020#32).imem 0#32 = .ok 0x00000020#32 ∧
    decodeWord 0x00000020#32 = .ok (.add 0 0 0 0) := by decide
theorem witness_WordsAreBigEndian : Memory.wf [(0, 1#8), (4095, 2#8)] = true := by decide
theorem witness_DataPortChecksAndMoves : (0xFFC#32).toNat % 4 = 0 ∧ (0xFFC#32).toNat < 4096 ∧
    4096 ≤ (0x1000#32).toNat ∧ (0x1000#32).toNat % 4 = 0 ∧ (0x1001#32).toNat % 4 ≠ 0 ∧
    Memory.wf [(4095, 2#8)] = true := by decide
theorem witness_DataPortWriteThenRead : Memory.wf [(4095, 2#8)] = true ∧ Memory.below dmemBytes [(4095, 2#8)] = true ∧
    ∃ m', dataWrite [(4095, 2#8)] 0xFFC#32 0x11223344#32 = .ok m' := ⟨by decide, by decide, _, rfl⟩
theorem witness_LoadedWordsAreFetched : (List.replicate 1024 1#32).length ≤ 1024 ∧
    1024 < (List.replicate 1025 1#32).length := by
  rw [List.length_replicate, List.length_replicate]
  omega
theorem witness_PersistedImagesReadBack :
    ∃ l ∈ ["00000000".toList, "0000000".toList], ¬ (l.length = 8 ∧ ∀ c ∈ l, c = '0' ∨ c = '1') :=
  ⟨"0000000".toList, by simp, fun h => absurd h.1 (by decide)⟩
theorem witness_PersistedImagesReadBack_word : byteOfLine "00100000".toList = some 0x20#8 ∧
    byteOfLine "00001000".toList = some 0x08#8 ∧ byteOfLine "11111110".toList = some 0xFE#8 ∧
    wordsOfLines ["00100000".toList, "00001000".toList, "11111111".toList, "11111110".toList] = .ok [0x2008FFFE#32] := by
  decide
theorem witness_RunStopsAtTheEndOrTheBound : (runUntilHalt 5 (stateAt 0#32 0x00000020#32)).2 = 2 ∧
    (runUntilHalt 1 (stateAt 0#32 0x00000020#32)).2 = 1 := by decide
theorem witness_HostWritesNothingDuringARun_loads : Session.initial.started = false ∧
    (List.replicate 1024 1#32).length ≤ 1024 ∧ 1024 < (List.replicate 1025 1#32).length := by
  rw [List.length_replicate, List.length_replicate]
  exact ⟨rfl, by omega, by omega⟩
theorem witness_HostWritesNothingDuringARun : (hostCall Session.initial .step).1.started = true := by decide
theorem witness_ExitStatusOfARun : assemble ["sub".toList] = .error [⟨1, 0, .unknownMnemonic⟩] := by decide
theorem witness_ExitStatusOfABootedRun : ∃ h, boot Session.initial ["mflo $v0".toList] [] = .ok h ∧
    (runUntilHalt 2 h.machine).1.status = .halted := ⟨_, rfl, by decide⟩
theorem witness_AssembledWords : assembleUnder .zero ["add $t0, $x, $t1".toList] = .ok [0x00094020#32] := by decide
theorem witness_AssembledWordsDecode : assembleUnder .zero ["add $t0, $x, $t1".toList] = .ok [0x00094020#32] ∧
    (placeLines 1 0 ["add $t0, $x, $t1".toList]).map PlacedLine.line =
      [.instruction "add".toList ["$t0".toList, "$x".toList, "$t1".toList]] ∧
    loadImem [0x00094020#32] = .ok (stateAt 0#32 0x00094020#32).imem ∧ (stateAt 0#32 0x00094020#32).pc.toNat = 0 ∧
    (stateAt 0#32 0x00094020#32).status = .running := by decide
theorem witness_DataImageIsStored : (List.replicate 4096 1#8).length ≤ 4096 ∧ 4096 < (List.replicate 4097 1#8).length ∧
    Session.initial.started = false := by
  rw [List.length_replicate, List.length_replicate]
  exact ⟨by omega, by omega, rfl⟩
/-- A run that ends, one that the bound pauses, and a boot that fails. -/
theorem witness_DriveEmitsTheRegisterDump :
    (∃ h, boot Session.initial ["addi $ra, $zero, 7".toList] [] = .ok h ∧
      exitOfStatus (runUntilHalt 2 h.machine).1.status = some .success ∧
      (registerDump (runUntilHalt 2 h.machine).1)[31]? = some ⟨31, "$ra".toList, 7#32⟩ ∧
      (runUntilHalt 1 h.machine).1.status = .running) ∧
    boot Session.initial ["sub".toList] [] = .error (.assembly [⟨1, 0, .unknownMnemonic⟩]) :=
  ⟨⟨_, rfl, by decide, by decide, by decide⟩, rfl⟩
/-- Four lines are an instruction image and a data image (fewer than 4096 lines), a line too short refuses, and the written image
is of a session that meets the invariant. -/
theorem witness_PersistedImagesAreLoaded :
    (∃ h, bootImages Session.initial ["00100000".toList, "00001000".toList, "11111111".toList, "11111111".toList]
      ["00000111".toList] = .ok h ∧ h.machine.imem.readWord 0 = 0x2008FFFF#32 ∧ h.machine.dmem = [(0, 7#8)]) ∧
    hostLoadDmemImage Session.initial ["0000011".toList] = (Session.initial, .refused .malformedLine) ∧
    (∃ m, loadDmemImage ["00000111".toList] = .ok m) ∧ Session.initial.started = false ∧
    4096 < (List.replicate 4097 "00000000".toList).length :=
  ⟨⟨_, rfl, by decide, by decide⟩, by rfl, ⟨_, rfl⟩, rfl, by rw [List.length_replicate]; omega⟩
theorem witness_PersistedImagesAreLoaded_written : Session.Inv ⟨stateAt 0xFFC#32 0x2008FFFF#32, true, 0⟩ :=
  witness_HostCallsKeepTheInvariant
theorem witness_AnyErrorGivesNoImage :
    assembleUnder .error ["add $t0, $x, $t1".toList] = .error [⟨1, 0, .unknownRegister "$x".toList⟩] := by decide
/-- Each kind of wrong line of R105, R107 and R108, at its edge. -/
theorem witness_AnyErrorGivesNoImage_lines :
    "sub".toList ∉ ["add".toList, "move".toList, "mult".toList, "mflo".toList, "nop".toList, "addi".toList, "beq".toList,
      "j".toList] ∧
    instrOfLine .zero [] 0 "nop".toList ["$t0".toList] = .error (.operandCount 0 1) ∧
    (∀ r : Reg, "$8".toList ≠ registerNames[r.val].toList) ∧ "$ra".toList = registerNames[(31 : Reg).val].toList ∧
    instrOfLine .error [] 0 "addi".toList ["$t0".toList, "$8".toList, "x".toList] = .error (.unknownRegister "$8".toList) := by
  decide
/-- A label operand that is found, one that is not, and the edges of a `beq` to a label. -/
theorem witness_LiteralLinesEncode_labels : literalOfText "loop".toList = none ∧
    findLabel [⟨"loop".toList, 1, 8⟩] "loop".toList = some ⟨"loop".toList, 1, 8⟩ ∧
    findLabel [⟨"loop".toList, 1, 8⟩] "pool".toList = none ∧ branchOffset 0 131072 = 32767 ∧ branchOffset 0 131076 = 32768 ∧
    branchOffset 131068 0 = -32768 ∧ 8 % 4 = 0 ∧ 268435452 / 4 < 2 ^ 26 ∧ ¬ 268435456 / 4 < 2 ^ 26 := by decide
/-- The source of the witness below: a label, a `beq` and a `j` to it. -/
def loopSource : List Text := ["loop:".toList, "beq $t2, $zero, loop".toList, "j loop".toList, "end:".toList]
theorem witness_LabelsBindTheNextInstruction : loopSource[3]? = some "end:".toList ∧
    assembleUnder .error loopSource = .ok [0x1140FFFF#32, 0x08000000#32] ∧
    labelTable (placeLines 1 0 loopSource) = [⟨"loop".toList, 1, 0⟩, ⟨"end".toList, 4, 8⟩] := by decide
theorem witness_TransfersArriveAtTheirLabel_source :
    (placeLines 1 0 loopSource).map PlacedLine.line = [.label "loop".toList [],
      .instruction "beq".toList ["$t2".toList, "$zero".toList, "loop".toList], .instruction "j".toList ["loop".toList],
      .label "end".toList []] ∧
    labelName "loop".toList [] = some "loop".toList ∧ literalOfText "loop".toList = none ∧
    (∃ m, loadImem [0x1140FFFF#32, 0x08000000#32] = .ok m) ∧ (placeLines 1 0 loopSource).map PlacedLine.address = [0, 0, 4, 8] :=
  ⟨by decide, by decide, by decide, ⟨_, rfl⟩, by decide⟩
theorem witness_LiteralLinesEncode : literalOfText "-32768".toList = some (-32768) ∧
    literalOfText "+268435456".toList = some 268435456 ∧ literalOfText "0x10".toList = none := by decide
theorem witness_TransfersArriveAtTheirLabel : (stateAt 0xFFC#32 0#32).pc.toNat = 4092 ∧ 4092 % 4 = 0 ∧ 4096 % 4 = 0 ∧
    branchOffset 4092 4096 = 0 ∧ branchOffset 12 4 = -3 := by decide

end Sys2Proof.Tests
end

section
/-! SUPPORT. Decode of encode: the fields of composed words, one equation per branch of the decoder, and the canonical form
(spec/30_encoding.md R84 to R86, R92; log 8). -/

namespace Sys2Proof

open Sys2Proof.Laws

/-! ### Fields of composed words (R84, R85) -/

section
variable (op funct : BitVec 6) (rs rt rd shamt : BitVec 5) (imm : BitVec 16) (target : BitVec 26)

@[simp] theorem rsOf_encR : rsOf (encR rs rt rd shamt funct) = rs :=
  BitVec.eq_of_toNat_eq (by rw [toNat_rsOf, toNat_encR]; omega)
@[simp] theorem rtOf_encR : rtOf (encR rs rt rd shamt funct) = rt :=
  BitVec.eq_of_toNat_eq (by rw [toNat_rtOf, toNat_encR]; omega)
@[simp] theorem rdOf_encR : rdOf (encR rs rt rd shamt funct) = rd :=
  BitVec.eq_of_toNat_eq (by rw [toNat_rdOf, toNat_encR]; omega)
@[simp] theorem shamtOf_encR : shamtOf (encR rs rt rd shamt funct) = shamt :=
  BitVec.eq_of_toNat_eq (by rw [toNat_shamtOf, toNat_encR]; omega)
@[simp] theorem functOf_encR : functOf (encR rs rt rd shamt funct) = funct :=
  BitVec.eq_of_toNat_eq (by rw [toNat_functOf, toNat_encR]; omega)
@[simp] theorem rsOf_encI : rsOf (encI op rs rt imm) = rs :=
  BitVec.eq_of_toNat_eq (by rw [toNat_rsOf, toNat_encI]; omega)
@[simp] theorem rtOf_encI : rtOf (encI op rs rt imm) = rt :=
  BitVec.eq_of_toNat_eq (by rw [toNat_rtOf, toNat_encI]; omega)
@[simp] theorem immOf_encI : immOf (encI op rs rt imm) = imm :=
  BitVec.eq_of_toNat_eq (by rw [toNat_immOf, toNat_encI]; omega)
@[simp] theorem targetOf_encJ : targetOf (encJ op target) = target :=
  BitVec.eq_of_toNat_eq (by rw [toNat_targetOf, toNat_encJ]; omega)

end

/-! ### The decoder's branches (R92). No instruction but the sentinel has the all-zero word, for its funct or opcode is not 0. -/

section
variable {w : Word}

theorem ne_zero_of_functOf {f : BitVec 6} (hf : functOf w = f) (h : f ≠ 0#6) : w ≠ 0#32 := by
  rintro rfl
  exact h (hf.symm.trans (by decide))

theorem ne_zero_of_opcodeOf {op : BitVec 6} (ho : opcodeOf w = op) (h : op ≠ 0#6) : w ≠ 0#32 := by
  rintro rfl
  exact h (ho.symm.trans (by decide))

theorem decodeWord_zero : decodeWord 0#32 = .ok .haltSentinel := if_pos rfl

theorem decodeWord_of_add (ho : opcodeOf w = opcRtype) (hf : functOf w = functAdd) :
    decodeWord w = .ok (.add (regOfBits (rdOf w)) (regOfBits (rsOf w)) (regOfBits (rtOf w)) (shamtOf w)) := by
  rw [decodeWord, if_neg (ne_zero_of_functOf hf (by decide)), if_pos ho, if_pos hf]

theorem decodeWord_of_mult (ho : opcodeOf w = opcRtype) (hf : functOf w = functMult) :
    decodeWord w = .ok (.mult (regOfBits (rsOf w)) (regOfBits (rtOf w)) (rdOf w) (shamtOf w)) := by
  rw [decodeWord, if_neg (ne_zero_of_functOf hf (by decide)), if_pos ho, if_neg (hf ▸ by decide), if_pos hf]

theorem decodeWord_of_mflo (ho : opcodeOf w = opcRtype) (hf : functOf w = functMflo) :
    decodeWord w = .ok (.mflo (regOfBits (rdOf w)) (rsOf w) (rtOf w) (shamtOf w)) := by
  rw [decodeWord, if_neg (ne_zero_of_functOf hf (by decide)), if_pos ho, if_neg (hf ▸ by decide), if_neg (hf ▸ by decide),
    if_pos hf]

theorem decodeWord_of_addi (ho : opcodeOf w = opcAddi) :
    decodeWord w = .ok (.addi (regOfBits (rtOf w)) (regOfBits (rsOf w)) (immOf w).toInt) := by
  rw [decodeWord, if_neg (ne_zero_of_opcodeOf ho (by decide)), if_neg (ho ▸ by decide), if_pos ho]

theorem decodeWord_of_beq (ho : opcodeOf w = opcBeq) :
    decodeWord w = .ok (.beq (regOfBits (rsOf w)) (regOfBits (rtOf w)) (immOf w).toInt) := by
  rw [decodeWord, if_neg (ne_zero_of_opcodeOf ho (by decide)), if_neg (ho ▸ by decide), if_neg (ho ▸ by decide), if_pos ho]

theorem decodeWord_of_j (ho : opcodeOf w = opcJ) : decodeWord w = .ok (.j (targetOf w).toNat) := by
  rw [decodeWord, if_neg (ne_zero_of_opcodeOf ho (by decide)), if_neg (ho ▸ by decide), if_neg (ho ▸ by decide),
    if_neg (ho ▸ by decide), if_pos ho]

end

/-! ### Decode of encode (R86) -/

theorem encode_eq_some_iff {i : Instr} {w : Word} : encode i = some w ↔ i.wellFormed = true ∧ encodeFields i = w := by
  cases h : i.wellFormed <;> simp [encode, h]

/-- With `FUNCT_NOP = 0` the word of `nop` is the sentinel's (R231, log 2). -/
theorem encodeFields_nop : encodeFields .nop = 0#32 := by decide

theorem decodeWord_encodeFields {i : Instr} (h : i.wellFormed = true) : decodeWord (encodeFields i) = .ok i.canonical := by
  cases i with
  | add rd rs rt shamt => simp [encodeFields, Instr.canonical, decodeWord_of_add (opcodeOf_encR ..) (functOf_encR ..)]
  | move rd rs shamt =>
    simp [encodeFields, Instr.canonical, decodeWord_of_add (opcodeOf_encR ..) (functOf_encR ..), ← bitsOfReg_zero]
  | mult rs rt rdField shamt =>
    simp [encodeFields, Instr.canonical, decodeWord_of_mult (opcodeOf_encR ..) (functOf_encR ..)]
  | mflo rd rsField rtField shamt =>
    simp [encodeFields, Instr.canonical, decodeWord_of_mflo (opcodeOf_encR ..) (functOf_encR ..)]
  | nop => rw [encodeFields_nop, decodeWord_zero, Instr.canonical]
  | haltSentinel => exact decodeWord_zero
  | addi rt rs imm => simp [encodeFields, Instr.canonical, decodeWord_of_addi (opcodeOf_encI ..), toInt_immField h]
  | beq rs rt off => simp [encodeFields, Instr.canonical, decodeWord_of_beq (opcodeOf_encI ..), toInt_immField h]
  | j target => simp [encodeFields, Instr.canonical, decodeWord_of_j (opcodeOf_encJ ..), toNat_targetField h]

theorem decodeWord_of_encode {i : Instr} {w : Word} (h : encode i = some w) : decodeWord w = .ok i.canonical := by
  obtain ⟨hwf, rfl⟩ := encode_eq_some_iff.mp h
  exact decodeWord_encodeFields hwf

@[simp] theorem wellFormed_canonical (i : Instr) : i.canonical.wellFormed = i.wellFormed := by
  cases i <;> rfl

namespace Machine

/-- With `FUNCT_NOP = 0` a `nop` halts (R231, log 2). -/
theorem exec_nop (s : State) : exec .nop s = .next (halt s) := by
  have hz : encR 0#5 0#5 0#5 0#5 functNop = 0#32 := encodeFields_nop
  exact congrArg Host.Outcome.next (if_pos hz)

/-- An instruction and its canonical form have one meaning: `move` is `add` with `rt = 0`, and `nop` is the sentinel. -/
theorem exec_canonical (i : Instr) (s : State) : exec i.canonical s = exec i s := by
  cases i with
  | nop => exact (exec_nop s).symm
  | _ => rfl

end Machine

end Sys2Proof
end

section
/-! SUPPORT. A loaded instruction image (spec/70_reset_and_hazards.md R271): it reads back and is fetched word by word, and the
step over a fetched word. -/

namespace Sys2Proof.Machine

@[simp] theorem byteOfWord_zero (b : Nat) : byteOfWord 0#32 b = 0#8 := by
  unfold byteOfWord
  split <;> rfl

@[simp] theorem length_bytesOfWord (w : Word) : (bytesOfWord w).length = 4 := rfl

theorem getD_bytesOfWord (w : Word) {b : Nat} (hb : b < 4) : (bytesOfWord w).getD b 0#8 = byteOfWord w b := by
  interval_cases b <;> rfl

@[simp] theorem bytesOfWords_cons (w : Word) (ws : List Word) : bytesOfWords (w :: ws) = bytesOfWord w ++ bytesOfWords ws :=
  rfl

/-- Byte `b` of word `k` stands at `4k + b`, and 0 after the last word. -/
theorem getD_bytesOfWords (ws : List Word) (k : Nat) {b : Nat} (hb : b < 4) :
    (bytesOfWords ws).getD (4 * k + b) 0#8 = byteOfWord (ws.getD k 0#32) b := by
  induction ws generalizing k with
  | nil => simp [bytesOfWords]
  | cons w ws ih =>
    cases k with
    | zero => rw [bytesOfWords_cons, List.getD_append _ _ _ _ (by simpa using hb)]; simpa using getD_bytesOfWord w hb
    | succ k =>
      have hsub : 4 * (k + 1) + b - (bytesOfWord w).length = 4 * k + b := by rw [length_bytesOfWord]; omega
      rw [bytesOfWords_cons, List.getD_append_right _ _ _ _ (by rw [length_bytesOfWord]; omega), hsub, ih,
        List.getD_cons_succ]

theorem loadImem_ok_iff {ws : List Word} {m : Memory} :
    loadImem ws = .ok m ↔ ws.length ≤ 1024 ∧ m = Memory.ofBytesAt 0 (bytesOfWords ws) := by
  have hcap : 4 * ws.length ≤ imemBytes ↔ ws.length ≤ 1024 := by rw [imemBytes]; omega
  by_cases h : ws.length ≤ 1024 <;> simp [loadImem, hcap, h, eq_comm]

theorem read_of_loadImem {ws : List Word} {m : Memory} (h : loadImem ws = .ok m) (k : Nat) {b : Nat} (hb : b < 4) :
    m.read (4 * k + b) = byteOfWord (ws.getD k 0#32) b := by
  obtain ⟨-, rfl⟩ := loadImem_ok_iff.mp h
  rw [Memory.read_ofBytesAt, if_pos (Nat.zero_le _), Nat.sub_zero, getD_bytesOfWords ws k hb]

theorem readWord_of_loadImem {ws : List Word} {m : Memory} (h : loadImem ws = .ok m) (k : Nat) :
    m.readWord (4 * k) = ws.getD k 0#32 := by
  have h0 : m.read (4 * k) = byteOfWord (ws.getD k 0#32) 0 := read_of_loadImem h k (b := 0) (by decide)
  rw [Memory.readWord, h0, read_of_loadImem h k (b := 1) (by decide), read_of_loadImem h k (b := 2) (by decide),
    read_of_loadImem h k (b := 3) (by decide), wordOfBytes_byteOfWord]

/-- Word `k` of an image is what a fetch at `4k` answers. -/
theorem ifetch_of_loadImem {ws : List Word} {m : Memory} {policy : FetchPolicy} {pc : Word} {k : Nat}
    (h : loadImem ws = .ok m) (hpc : pc.toNat = 4 * k) (hk : k < 1024) : ifetch policy m pc = .ok (ws.getD k 0#32) := by
  have ha : aligned pc = true := (aligned_iff pc).mpr (by omega)
  have hr : pc.toNat < imemBytes := by rw [imemBytes]; omega
  rw [ifetch_of_fetchable (by simp [fetchable, ha, hr]), hpc, readWord_of_loadImem h]

/-- A RUNNING machine runs the instruction that the word at its pc decodes to. -/
theorem step_of_fetch_decode {s : State} {w : Word} {i : Instr} (hr : s.status = .running)
    (hf : ifetch fetchOorPolicy s.imem s.pc = .ok w) (hd : decodeWord w = .ok i) : step s = exec i s :=
  stepUnder_of_ok hr (fetchDecode_ok_iff.mpr ⟨w, hf, hd⟩)

/-- A RUNNING machine at word `k` of its loaded image runs the instruction that word decodes to. -/
theorem step_of_loadImem {ws : List Word} {s : State} {k : Nat} {w : Word} {i : Instr} (hm : loadImem ws = .ok s.imem)
    (hpc : s.pc.toNat = 4 * k) (hw : ws[k]? = some w) (hr : s.status = .running) (hd : decodeWord w = .ok i) :
    step s = exec i s := by
  obtain ⟨hk, rfl⟩ := List.getElem?_eq_some_iff.mp hw
  obtain ⟨hlen, -⟩ := loadImem_ok_iff.mp hm
  have hf := ifetch_of_loadImem (policy := fetchOorPolicy) hm hpc (by omega)
  rw [List.getD_eq_getElem _ _ hk] at hf
  exact step_of_fetch_decode hr hf hd

end Sys2Proof.Machine
end

section
/-! SUPPORT. The assembler (spec/30_encoding.md R100 to R109): what a line gives, when there is an image, and where in it the word
of each instruction line stands. -/

namespace Sys2Proof.Machine

variable {policy : UnknownRegPolicy} {table : List LabelEntry} {p : PlacedLine} {ps : List PlacedLine} {w : Word}

/-- Everything a line with no error can give: no word, or the word of its instruction. -/
theorem wordOfLine_ok_cases {o : Option Word} (h : wordOfLine policy table p = .ok o) :
    (p.line.isInstruction = false ∧ o = none) ∨
    (∃ mnemonic operands i w, p.line = .instruction mnemonic operands ∧
      instrOfLine policy table p.address mnemonic operands = .ok i ∧ encode i = some w ∧ o = some w) := by
  unfold wordOfLine at h
  cases hl : p.line with
  | blank =>
    rw [hl] at h
    cases h
    exact .inl ⟨rfl, rfl⟩
  | comment =>
    rw [hl] at h
    cases h
    exact .inl ⟨rfl, rfl⟩
  | label before after =>
    rw [hl] at h
    refine .inl ⟨rfl, ?_⟩
    simp only at h
    repeat' split at h
    all_goals cases h <;> rfl
  | instruction mnemonic operands =>
    rw [hl] at h
    simp only at h
    split at h
    · cases h
    · next i hi =>
      split at h
      · next w hw => exact .inr ⟨mnemonic, operands, i, w, rfl, hi, hw, by simpa using h.symm⟩
      · cases h

/-! ### The words and the reports of the placed lines -/

theorem wordsOf_cons_none (h : wordOfLine policy table p = .ok none) :
    wordsOf policy table (p :: ps) = wordsOf policy table ps := by
  simp [wordsOf, h]

theorem wordsOf_cons_some (h : wordOfLine policy table p = .ok (some w)) :
    wordsOf policy table (p :: ps) = w :: wordsOf policy table ps := by
  simp [wordsOf, h]

theorem mem_wordsOf : w ∈ wordsOf policy table ps ↔ ∃ p ∈ ps, wordOfLine policy table p = .ok (some w) := by
  rw [wordsOf, List.mem_filterMap]
  refine exists_congr fun p => and_congr_right fun _ => ?_
  cases wordOfLine policy table p <;> simp

theorem reportsOf_eq_nil_iff : reportsOf policy table ps = [] ↔ ∀ p ∈ ps, ∃ o, wordOfLine policy table p = .ok o := by
  rw [reportsOf, List.filterMap_eq_nil_iff]
  refine forall₂_congr fun p _ => ?_
  cases wordOfLine policy table p <;> simp

/-- There is an image exactly when no line is wrong, and it is the lines' words in order (R100, R109). -/
theorem assembleUnder_ok_iff {source : List Text} {ws : List Word} : assembleUnder policy source = .ok ws ↔
    (∀ p ∈ placeLines 1 0 source, ∃ o, wordOfLine policy (labelTable (placeLines 1 0 source)) p = .ok o) ∧
    wordsOf policy (labelTable (placeLines 1 0 source)) (placeLines 1 0 source) = ws := by
  rw [← reportsOf_eq_nil_iff]
  simp only [assembleUnder]
  cases reportsOf policy (labelTable (placeLines 1 0 source)) (placeLines 1 0 source) <;> simp

/-! ### Placement (R103) -/

/-- Pass 1 counts the words: a line that gives one has it at its address, counted in words from the first line's address. -/
theorem wordsOf_placeLines_getElem? {n a : Nat} {source : List Text}
    (hok : ∀ p ∈ placeLines n a source, ∃ o, wordOfLine policy table p = .ok o) (hp : p ∈ placeLines n a source) :
    ∃ k, p.address = a + 4 * k ∧ ∀ w, wordOfLine policy table p = .ok (some w) →
      (wordsOf policy table (placeLines n a source))[k]? = some w := by
  induction source generalizing n a with
  | nil => simp [placeLines] at hp
  | cons t rest ih =>
    rw [placeLines] at hok hp ⊢
    obtain ⟨⟨o, ho⟩, hrest⟩ := List.forall_mem_cons.mp hok
    rcases List.mem_cons.mp hp with rfl | hp
    · exact ⟨0, rfl, fun w hw => by rw [wordsOf_cons_some hw]; rfl⟩
    · obtain ⟨k, hk, hword⟩ := ih hrest hp
      rcases wordOfLine_ok_cases ho with ⟨hline, rfl⟩ | ⟨mnemonic, operands, i, w₀, hline, -, -, rfl⟩
      · have hline : (classify t).isInstruction = false := hline
        rw [hline] at hk
        exact ⟨k, hk, by rwa [wordsOf_cons_none ho]⟩
      · have hline : classify t = .instruction mnemonic operands := hline
        rw [hline] at hk
        refine ⟨k + 1, ?_, by rwa [wordsOf_cons_some ho]⟩
        rw [hk, LineClass.isInstruction, if_pos rfl]
        omega

end Sys2Proof.Machine
end

section
/-! CLAIM. From source line to executed step (spec/00_scope.md R1; spec/30_encoding.md R100, R103, R104). -/

namespace Sys2Proof.Machine

/-- Every word of an image is the word of an instruction that fits its fields. -/
theorem exists_encode_of_mem_assembleUnder {policy : UnknownRegPolicy} {source : List Text} {ws : List Word} {w : Word}
    (h : assembleUnder policy source = .ok ws) (hw : w ∈ ws) : ∃ i, encode i = some w := by
  obtain ⟨-, rfl⟩ := assembleUnder_ok_iff.mp h
  obtain ⟨p, -, hp⟩ := mem_wordsOf.mp hw
  rcases wordOfLine_ok_cases hp with ⟨-, hnone⟩ | ⟨_, _, i, w', -, -, henc, hsome⟩
  · cases hnone
  · cases hsome
    exact ⟨i, henc⟩

/-- Each instruction line of an assembled source is an instruction whose word stands in the image at the line's address. -/
theorem exists_word_of_instruction_line {policy : UnknownRegPolicy} {source : List Text} {ws : List Word} {p : PlacedLine}
    {mnemonic : Text} {operands : List Text} (h : assembleUnder policy source = .ok ws) (hp : p ∈ placeLines 1 0 source)
    (hl : p.line = .instruction mnemonic operands) :
    ∃ i w k, instrOfLine policy (labelTable (placeLines 1 0 source)) p.address mnemonic operands = .ok i ∧
      encode i = some w ∧ p.address = 4 * k ∧ ws[k]? = some w := by
  obtain ⟨hok, rfl⟩ := assembleUnder_ok_iff.mp h
  obtain ⟨o, ho⟩ := hok p hp
  obtain ⟨k, hk, hword⟩ := wordsOf_placeLines_getElem? hok hp
  rcases wordOfLine_ok_cases ho with ⟨hnot, -⟩ | ⟨mnemonic', operands', i, w, hl', hi, henc, rfl⟩
  · rw [hl] at hnot
    cases hnot
  · cases hl.symm.trans hl'
    exact ⟨i, w, k, hi, henc, by omega, hword w ho⟩

/-- Settles O50: encoding is undone by the decoder, the word of a line stands at its address, and a step runs the word its fetch
at that address decodes to. -/
theorem assembledWordsDecode : Obligations.AssembledWordsDecode := by
  intro policy source ws h
  refine ⟨fun w hw => ?_, fun p hp mnemonic operands hl => ?_⟩
  · obtain ⟨i, henc⟩ := exists_encode_of_mem_assembleUnder h hw
    obtain ⟨hwf, -⟩ := encode_eq_some_iff.mp henc
    exact ⟨i.canonical, decodeWord_of_encode henc, (wellFormed_canonical i).trans hwf⟩
  · obtain ⟨i, w, k, hi, henc, haddr, hword⟩ := exists_word_of_instruction_line h hp hl
    have hdec : decodeWord w = .ok i.canonical := decodeWord_of_encode henc
    refine ⟨i, w, hi, by rwa [haddr, Nat.mul_div_cancel_left k (by decide)], hdec, exec_canonical i, ?_⟩
    intro s hm hpc hr
    exact (step_of_loadImem hm (hpc.trans haddr) hword hr hdec).trans (exec_canonical i s)

end Sys2Proof.Machine
end

section
/-! SUPPORT. What one cycle can do to the state, said once over the whole step (spec/40_engine.md R152), with what it follows
for each part of the state; and the induction over a run. -/

namespace Sys2Proof.Machine

variable {s t : State}

/-! ### The next-pc candidates (R150) -/

/-- One of the three values the PC multiplexer chooses from. -/
def IsNextPc (pc target : Word) : Prop :=
  (∃ imm, target = branchTarget pc imm) ∨ target = seqPc pc ∨ ∃ t, target = jumpTarget pc t

theorem aligned_seqPc {pc : Word} (h : aligned pc = true) : aligned (seqPc pc) = true := by
  rw [aligned_iff] at h ⊢
  rw [toNat_seqPc]
  omega

theorem aligned_branchTarget {pc : Word} (h : aligned pc = true) (imm : BitVec 16) :
    aligned (branchTarget pc imm) = true := by
  rw [aligned_iff] at h ⊢
  rw [toNat_branchTarget]
  omega

theorem aligned_jumpTarget (pc : Word) (target : BitVec 26) : aligned (jumpTarget pc target) = true := by
  rw [aligned_iff, toNat_jumpTarget]
  omega

theorem IsNextPc.aligned {pc target : Word} (h : IsNextPc pc target) (hpc : aligned pc = true) :
    aligned target = true := by
  rcases h with ⟨imm, rfl⟩ | rfl | ⟨index, rfl⟩
  · exact aligned_branchTarget hpc imm
  · exact aligned_seqPc hpc
  · exact aligned_jumpTarget pc index

/-! ### The cycle -/

/-- The six things a cycle can end in, with what was fetched where the next state depends on it. -/
inductive CycleResult (s : State) : State → Prop where
  /-- The machine is not RUNNING (R34, R152). -/
  | ended (hs : s.status ≠ .running) : CycleResult s s
  /-- Fetch or decode took a fault (R240, R246). -/
  | faulted {cause : Fault} {word : Option Word} (hf : fetchDecode fetchOorPolicy s = .error (cause, word)) :
      CycleResult s (raiseFault cause word s)
  /-- The sentinel (R230). -/
  | halted (hf : fetchDecode fetchOorPolicy s = .ok .haltSentinel) : CycleResult s (halt s)
  /-- `add`, `addi`, `mflo`. -/
  | wroteRegister (hr : s.status = .running) (rd : Reg) (v : Word) : CycleResult s (writeResult s rd v)
  /-- `mult`. -/
  | wroteHiLo (hr : s.status = .running) {rs rt : Reg} {rdField shamt : BitVec 5}
      (hf : fetchDecode fetchOorPolicy s = .ok (.mult rs rt rdField shamt)) (hi lo : Word) :
      CycleResult s (advance (writeHiLo s hi lo))
  /-- `beq`, `j`. -/
  | movedPc (hr : s.status = .running) {target : Word} (ht : IsNextPc s.pc target) : CycleResult s (setPc s target)

/-- A step always answers a next state (log 5), and it is one of those. -/
theorem step_result (s : State) : ∃ t, step s = .next t ∧ CycleResult s t := by
  rcases stepUnder_cases fetchOorPolicy s with ⟨hs, he⟩ | ⟨cause, word, -, hf, he⟩ | ⟨i, hr, hf, he⟩
  · exact ⟨s, he, .ended hs⟩
  · exact ⟨_, he, .faulted hf⟩
  · rw [step_eq, he]
    rcases exec_cases i s with ⟨rfl | rfl, hx⟩ | ⟨rd, v, hx⟩ | ⟨rs, rt, rdField, shamt, hi, lo, rfl, hx⟩ | ⟨target, ht, hx⟩
    · obtain ⟨w, -, hw⟩ := fetchDecode_ok_iff.mp hf
      exact absurd hw (decodeWord_ne_nop w)
    · exact ⟨_, hx, .halted hf⟩
    · exact ⟨_, hx, .wroteRegister hr rd v⟩
    · exact ⟨_, hx, .wroteHiLo hr hf hi lo⟩
    · exact ⟨_, hx, .movedPc hr ht⟩

theorem cycleResult_of_step (h : step s = .next t) : CycleResult s t := by
  obtain ⟨t', ht, hc⟩ := step_result s
  cases ht.symm.trans h
  exact hc

theorem step_eq_next_stepState (s : State) : step s = .next (stepState s) := by
  obtain ⟨t, ht, -⟩ := step_result s
  rw [stepState_of_next ht, ht]

theorem statusExplained_of_running (hr : s.status = .running) : statusExplained s := by
  simp [statusExplained, hr]

namespace CycleResult

theorem imem_eq (h : CycleResult s t) : t.imem = s.imem := by
  cases h <;> simp

theorem dmem_eq (h : CycleResult s t) : t.dmem = s.dmem := by
  cases h <;> simp

theorem slot_zero (h : CycleResult s t) : t.gpr[0] = s.gpr[0] := by
  cases h <;> simp

theorem pc_cases (h : CycleResult s t) : t.pc = s.pc ∨ IsNextPc s.pc t.pc := by
  cases h with
  | ended | faulted | halted => exact .inl rfl
  | wroteRegister hr rd v => exact .inr (.inr (.inl (writeResult_pc s rd v)))
  | wroteHiLo => exact .inr (.inr (.inl rfl))
  | movedPc hr ht => exact .inr ht

theorem pc_aligned (h : CycleResult s t) (hpc : aligned s.pc = true) : aligned t.pc = true := by
  rcases h.pc_cases with he | hn
  · rwa [he]
  · exact hn.aligned hpc

/-- The run status after a cycle: an end is explained by what the cycle fetched, at a pc that the end does not move. -/
theorem statusExplained (h : CycleResult s t) (hs : statusExplained s) : statusExplained t := by
  cases h with
  | ended => exact hs
  | faulted hf => exact ⟨rfl, hf⟩
  | halted hf => exact hf
  | wroteRegister hr rd v => exact statusExplained_of_running ((writeResult_status s rd v).trans hr)
  | wroteHiLo hr => exact statusExplained_of_running hr
  | movedPc hr => exact statusExplained_of_running hr

end CycleResult

/-! ### Runs -/

@[simp] theorem stateAfter_zero (s : State) : stateAfter 0 s = s := rfl

@[simp] theorem stateAfter_succ (n : Nat) (s : State) : stateAfter (n + 1) s = stateAfter n (stepState s) := rfl

/-- What every cycle keeps, every run keeps. -/
theorem stateAfter_induction {P : State → Prop} (hP : ∀ s t, CycleResult s t → P s → P t) (n : Nat) (s : State)
    (hs : P s) : P (stateAfter n s) := by
  induction n generalizing s with
  | zero => exact hs
  | succ n ih => exact ih _ (hP s _ (cycleResult_of_step (step_eq_next_stepState s)) hs)

end Sys2Proof.Machine
end

section
/-! CLAIM. The invariant: every step keeps it, reset meets it, and ended runs are final (spec/10_state.md R21, R28, R34, R36;
spec/20_memory.md R50; spec/60_exceptions.md R246, R247). -/

namespace Sys2Proof.Machine

variable {s t : State}

theorem CycleResult.inv (h : CycleResult s t) (hs : s.Inv) : t.Inv where
  zeroReg := h.slot_zero.trans hs.zeroReg
  pcAligned := h.pc_aligned hs.pcAligned
  imemWf := h.imem_eq ▸ hs.imemWf
  imemBelow := h.imem_eq ▸ hs.imemBelow
  dmemWf := h.dmem_eq ▸ hs.dmemWf
  dmemBelow := h.dmem_eq ▸ hs.dmemBelow
  status := h.statusExplained hs.status

/-- Settles O10: each part of the invariant is kept by each thing a cycle can end in. -/
theorem stepKeepsTheInvariant : Obligations.StepKeepsTheInvariant :=
  fun _ _ hs h => (cycleResult_of_step h).inv hs

theorem resetOfLaunch_pc_aligned (n : Nat) : aligned (State.resetOfLaunch n).pc = true :=
  show aligned 0#32 = true by decide

@[simp] theorem readReg_resetOfLaunch (n : Nat) (r : Reg) : readReg (State.resetOfLaunch n) r = 0#32 := by
  by_cases hr : r = 0
  · rw [hr, readReg_zero]
  · rw [readReg_of_ne_zero _ hr]
    exact Vector.getElem_replicate r.isLt

/-- Settles O8: slot 0 reads 0 by R21 and the others by the reset's register file; the memories are the empty lists. -/
theorem resetLeavesTheSpecsValues : Obligations.ResetLeavesTheSpecsValues :=
  ⟨fun n => ⟨readReg_resetOfLaunch n, rfl, rfl, rfl, fun a => ⟨Memory.read_nil a, Memory.read_nil a⟩, rfl⟩, rfl⟩

/-- Settles O9: each part is a fact about the reset's own fields. -/
theorem resetMeetsTheInvariant : Obligations.ResetMeetsTheInvariant := fun n =>
  { zeroReg := Vector.getElem_replicate (by decide)
    pcAligned := resetOfLaunch_pc_aligned n
    imemWf := rfl
    imemBelow := rfl
    dmemWf := rfl
    dmemBelow := rfl
    status := trivial }

theorem stateAfter_of_ended (hs : s.status ≠ .running) (n : Nat) : stateAfter n s = s := by
  induction n with
  | zero => rfl
  | succ n ih => rw [stateAfter_succ, stepState_of_next (stepUnder_of_ended hs), ih]

/-- Settles O18: a step of an ended run answers the state itself, so any number of them do. -/
theorem endedRunsStayAsTheyAre : Obligations.EndedRunsStayAsTheyAre :=
  fun _ n hs => ⟨stepUnder_of_ended hs, stateAfter_of_ended hs n⟩

end Sys2Proof.Machine
end

section
/-! CLAIM. What a cycle writes: HI and LO, one register, an aligned pc (spec/10_state.md R22, R28, R29). -/

namespace Sys2Proof.Machine

variable {s t : State}

/-- Settles O21: no other result of a cycle touches HI or LO. -/
theorem onlyMultWritesHiLo : Obligations.OnlyMultWritesHiLo := by
  intro s t h hne
  cases cycleResult_of_step h with
  | wroteHiLo hr hf hi lo => exact ⟨_, _, _, _, hf⟩
  | ended | faulted | halted | wroteRegister | movedPc => simp at hne

/-- Settles O24: the cycle that writes a register names it; in every other cycle no register changes, and 0 will do. -/
theorem oneRegisterPerCycle : Obligations.OneRegisterPerCycle := by
  intro s t h
  have hc := cycleResult_of_step h
  refine ⟨?_, hc.slot_zero⟩
  cases hc with
  | wroteRegister hr rd v => exact ⟨rd, fun r hne => by simp [readReg_writeResult, hne]⟩
  | ended | faulted | halted | wroteHiLo | movedPc => exact ⟨0, fun r _ => rfl⟩

/-- An aligned pc and no fetch alignment fault behind it. -/
structure FetchAligned (s : State) : Prop where
  pc : aligned s.pc = true
  noFault : ∀ pc word, s.status ≠ .faulted .fetchMisaligned pc word

theorem fetchMisaligned_of_error {word : Option Word}
    (h : fetchDecode fetchOorPolicy s = .error (.fetchMisaligned, word)) : aligned s.pc = false := by
  rcases fetchDecode_error_cases h with ⟨ha, -, -⟩ | ⟨-, -, -, hc, -⟩ | ⟨-, e, -, -, hc, -⟩
  · exact ha
  · cases hc
  · cases e <;> cases hc

theorem CycleResult.fetchAligned (h : CycleResult s t) (hs : FetchAligned s) : FetchAligned t := by
  obtain ⟨hpc, hno⟩ := hs
  refine ⟨h.pc_aligned hpc, fun pc word hst => ?_⟩
  cases h with
  | ended => exact hno pc word hst
  | faulted hf =>
    cases hst
    rw [fetchMisaligned_of_error hf] at hpc
    cases hpc
  | halted => cases hst
  | wroteRegister hr rd v => exact hno pc word (by rwa [writeResult_status] at hst)
  | wroteHiLo => exact hno pc word hst
  | movedPc => exact hno pc word hst

/-- Settles O25: the candidates are aligned, and an aligned pc without the fault is kept by every cycle. -/
theorem pcStaysAligned : Obligations.PcStaysAligned := by
  refine ⟨fun pc imm target h => ⟨aligned_seqPc h, aligned_branchTarget h imm, aligned_jumpTarget pc target⟩, ?_, ?_, ?_⟩
  · exact stateAfter_induction fun _ _ hc hs => hc.pc_aligned hs
  · intro n s pc word hr hpc
    have hs : FetchAligned s := ⟨hpc, by simp [hr]⟩
    exact (stateAfter_induction (fun _ _ hc => hc.fetchAligned) n s hs).noFault pc word
  · exact resetOfLaunch_pc_aligned

end Sys2Proof.Machine
end

section
/-! CLAIM. Who reads HI and LO: nothing reads HI and `mflo` alone reads LO (spec/10_state.md R29; spec/42_multiply.md R192, R193). -/

namespace Sys2Proof.Machine

variable {s t : State} {hi lo : Word}

theorem writeReg_writeHiLo (s : State) (rd : Reg) (v hi lo : Word) :
    writeReg (writeHiLo s hi lo) rd v = writeHiLo (writeReg s rd v) hi lo := by
  unfold writeReg
  split <;> rfl

theorem writeResult_writeHiLo (s : State) (rd : Reg) (v hi lo : Word) :
    writeResult (writeHiLo s hi lo) rd v = writeHiLo (writeResult s rd v) hi lo := by
  simp only [writeResult, writeReg_writeHiLo]
  rfl

theorem hiLoSame_writeResult (s : State) (rd : Reg) (v : Word) : hiLoSame s (writeResult s rd v) :=
  ⟨writeResult_hi s rd v, writeResult_lo s rd v⟩

/-- An instruction over other values of HI and LO, where an `mflo` finds the LO it had: `mult` overwrites both, and every other
instruction runs alike and leaves them as it found them. -/
theorem exec_writeHiLo (i : Instr) (h : exec i s = .next t) (hlo : lo = s.lo ∨ ∀ rd a b c, i ≠ .mflo rd a b c) :
    exec i (writeHiLo s hi lo) = .next t ∨
    (hiLoSame s t ∧ exec i (writeHiLo s hi lo) = .next (writeHiLo t hi lo)) := by
  cases i with
  | add | move | addi =>
    cases h
    exact .inr ⟨hiLoSame_writeResult .., congrArg Host.Outcome.next (writeResult_writeHiLo ..)⟩
  | mflo rd a b c =>
    rcases hlo with rfl | hne
    · cases h
      exact .inr ⟨hiLoSame_writeResult .., congrArg Host.Outcome.next (writeResult_writeHiLo ..)⟩
    · exact absurd rfl (hne rd a b c)
  | mult => exact .inl h
  | nop | haltSentinel | beq | j =>
    cases h
    exact .inr ⟨⟨rfl, rfl⟩, rfl⟩

/-- The same of a step: fetch and decode do not look at HI or LO. -/
theorem step_writeHiLo (h : step s = .next t)
    (hlo : lo = s.lo ∨ ∀ rd a b c, fetchDecode fetchOorPolicy s ≠ .ok (.mflo rd a b c)) :
    step (writeHiLo s hi lo) = .next t ∨ (hiLoSame s t ∧ step (writeHiLo s hi lo) = .next (writeHiLo t hi lo)) := by
  have hfetch : fetchDecode fetchOorPolicy (writeHiLo s hi lo) = fetchDecode fetchOorPolicy s := fetchDecode_congr rfl rfl
  rcases stepUnder_cases fetchOorPolicy s with ⟨hs, he⟩ | ⟨cause, word, hr, hf, he⟩ | ⟨i, hr, hf, he⟩
  · cases he.symm.trans h
    exact .inr ⟨⟨rfl, rfl⟩, stepUnder_of_ended hs⟩
  · cases he.symm.trans h
    exact .inr ⟨⟨rfl, rfl⟩, stepUnder_of_error hr (hfetch.trans hf)⟩
  · have hstep : step (writeHiLo s hi lo) = exec i (writeHiLo s hi lo) := stepUnder_of_ok hr (hfetch.trans hf)
    rw [hstep]
    refine exec_writeHiLo i (he.symm.trans h) (hlo.imp_right fun hne rd a b c hi => hne rd a b c ?_)
    rw [hf, hi]

/-- Two states that differ in HI step to two that do. -/
theorem stepState_hi (s : State) (v : Word) : ∃ v', stepState { s with hi := v } = { stepState s with hi := v' } := by
  have h := step_eq_next_stepState s
  rcases step_writeHiLo (hi := v) h (.inl rfl) with he | ⟨⟨-, hlo⟩, he⟩
  · exact ⟨(stepState s).hi, stepState_of_next he⟩
  · have hsame : writeHiLo (stepState s) v s.lo = { stepState s with hi := v } := by
      rw [← hlo]
      rfl
    exact ⟨v, stepState_of_next (he.trans (congrArg _ hsame))⟩

/-- Settles O22, by induction on the number of steps. -/
theorem hiIsSeenByTheHostAlone : Obligations.HiIsSeenByTheHostAlone := by
  intro n
  induction n with
  | zero => exact fun s v => ⟨v, rfl⟩
  | succ n ih =>
    intro s v
    obtain ⟨v₁, h₁⟩ := stepState_hi s v
    simpa only [stateAfter_succ, h₁] using ih (stepState s) v₁

/-- Settles O23: the changed LO is overwritten by a `mult` and is left where it stands by every other step. -/
theorem loIsReadByMfloAlone : Obligations.LoIsReadByMfloAlone := by
  intro s t v h hne
  rcases step_writeHiLo (hi := s.hi) (lo := v) h (.inr hne) with he | ⟨⟨hhi, -⟩, he⟩
  · exact ⟨t.lo, he⟩
  · have hsame : writeHiLo t s.hi v = { t with lo := v } := by
      rw [← hhi]
      rfl
    exact ⟨v, he.trans (congrArg _ hsame)⟩

end Sys2Proof.Machine
end

section
/-! SUPPORT. Words in a memory (spec/20_memory.md R52) and the data port in numbers (R60): what its checks answer, and what a read
and a write answer after them. -/

namespace Sys2Proof.Machine

/-- A word put together from four bytes and taken apart again. -/
theorem byteOfWord_wordOfBytes (b0 b1 b2 b3 : Byte) :
    byteOfWord (wordOfBytes b0 b1 b2 b3) 0 = b0 ∧ byteOfWord (wordOfBytes b0 b1 b2 b3) 1 = b1 ∧
    byteOfWord (wordOfBytes b0 b1 b2 b3) 2 = b2 ∧ byteOfWord (wordOfBytes b0 b1 b2 b3) 3 = b3 := by
  have hw := toNat_wordOfBytes b0 b1 b2 b3
  obtain ⟨h0, h1, h2, h3⟩ := toNat_byteOfWord (wordOfBytes b0 b1 b2 b3)
  refine ⟨BitVec.eq_of_toNat_eq ?_, BitVec.eq_of_toNat_eq ?_, BitVec.eq_of_toNat_eq ?_, BitVec.eq_of_toNat_eq ?_⟩ <;> omega

namespace Memory

variable {m n : Memory}

theorem readWord_congr {a : Nat} (h : ∀ x, a ≤ x → x < a + 4 → m.read x = n.read x) : m.readWord a = n.readWord a := by
  rw [readWord, readWord, h a (by omega) (by omega), h (a + 1) (by omega) (by omega), h (a + 2) (by omega) (by omega),
    h (a + 3) (by omega) (by omega)]

/-- The four bytes of a written word, the first most significant. -/
theorem bytes_writeWord (hm : m.wf = true) (a : Nat) (v : Word) :
    (m.writeWord a v).read a = byteOfWord v 0 ∧ (m.writeWord a v).read (a + 1) = byteOfWord v 1 ∧
    (m.writeWord a v).read (a + 2) = byteOfWord v 2 ∧ (m.writeWord a v).read (a + 3) = byteOfWord v 3 := by
  simp [read_writeWord hm]

/-- No byte outside the written word changes. -/
theorem read_writeWord_of_outside (hm : m.wf = true) {a x : Nat} (v : Word) (hx : x < a ∨ a + 4 ≤ x) :
    (m.writeWord a v).read x = m.read x := by
  rw [read_writeWord hm, if_neg (by omega), if_neg (by omega), if_neg (by omega), if_neg (by omega)]

theorem readWord_writeWord_same (hm : m.wf = true) (a : Nat) (v : Word) : (m.writeWord a v).readWord a = v := by
  obtain ⟨h0, h1, h2, h3⟩ := bytes_writeWord hm a v
  rw [readWord, h0, h1, h2, h3, wordOfBytes_byteOfWord]

theorem readWord_writeWord_of_disjoint (hm : m.wf = true) {a b : Nat} (v : Word) (h : b + 4 ≤ a ∨ a + 4 ≤ b) :
    (m.writeWord a v).readWord b = m.readWord b :=
  readWord_congr fun _ _ _ => read_writeWord_of_outside hm v (by omega)

end Memory

/-! ### The data port -/

section
variable {m m' : Memory} {a v : Word} {e : DataError}

/-- Everything the port's checks can answer, alignment first (R60). -/
theorem dataCheck_cases (a : Word) :
    (a.toNat % 4 ≠ 0 ∧ dataCheck a = .error ⟨.dataMisaligned, a⟩) ∨
    (a.toNat % 4 = 0 ∧ 4096 ≤ a.toNat ∧ dataCheck a = .error ⟨.dataOutOfRange, a⟩) ∨
    (a.toNat % 4 = 0 ∧ a.toNat < 4096 ∧ dataCheck a = .ok ()) := by
  by_cases ha : a.toNat % 4 = 0
  · have hal : aligned a = true := (aligned_iff a).mpr ha
    by_cases hr : 4096 ≤ a.toNat
    · exact .inr (.inl ⟨ha, hr, by simp [dataCheck, hal, dmemBytes, hr]⟩)
    · exact .inr (.inr ⟨ha, Nat.not_le.mp hr, by simp [dataCheck, hal, dmemBytes, hr]⟩)
  · have hal : aligned a = false := Bool.eq_false_iff.mpr (ha ∘ (aligned_iff a).mp)
    exact .inl ⟨ha, by simp [dataCheck, hal]⟩

theorem dataRead_of_check_error (h : dataCheck a = .error e) : dataRead m a = .error e := by simp [dataRead, h]

theorem dataRead_of_check_ok (h : dataCheck a = .ok ()) : dataRead m a = .ok (m.readWord a.toNat) := by simp [dataRead, h]

theorem dataWrite_of_check_error (h : dataCheck a = .error e) : dataWrite m a v = .error e := by simp [dataWrite, h]

theorem dataWrite_of_check_ok (h : dataCheck a = .ok ()) : dataWrite m a v = .ok (m.writeWord a.toNat v) := by
  simp [dataWrite, h]

/-- A write succeeds exactly when its address passes both checks, and then it stores the word. -/
theorem dataWrite_ok_iff :
    dataWrite m a v = .ok m' ↔ a.toNat % 4 = 0 ∧ a.toNat < 4096 ∧ m' = m.writeWord a.toNat v := by
  rcases dataCheck_cases a with ⟨ha, hc⟩ | ⟨ha, hr, hc⟩ | ⟨ha, hr, hc⟩
  · simp [dataWrite_of_check_error hc, ha]
  · simp [dataWrite_of_check_error hc, Nat.not_lt.mpr hr]
  · simp [dataWrite_of_check_ok hc, ha, hr, eq_comm]

end

end Sys2Proof.Machine
end

section
/-! CLAIM. The memories and their ports: byte order, fetch, the data port (spec/20_memory.md R52, R55, R56, R60, R62). -/

namespace Sys2Proof.Machine

/-- Settles O41: a word's bytes are the ones it was put together from, on a read and after a write. -/
theorem wordsAreBigEndian : Obligations.WordsAreBigEndian := by
  intro m a v
  obtain ⟨h0, h1, h2, h3⟩ := byteOfWord_wordOfBytes (m.read a) (m.read (a + 1)) (m.read (a + 2)) (m.read (a + 3))
  exact ⟨h0, h1, h2, h3, fun hm => ⟨Memory.readWord_writeWord_same hm a v, Memory.bytes_writeWord hm a v⟩⟩

/-- Settles O44: two different aligned addresses are at least a word apart, and an address that is refused is refused before and
after. -/
theorem dataPortWriteThenRead : Obligations.DataPortWriteThenRead := by
  intro m m' a v hm hbelow hw
  obtain ⟨ha, hr, rfl⟩ := dataWrite_ok_iff.mp hw
  refine ⟨?_, fun b hb => ?_, Memory.wf_writeWord hm _ v, Memory.below_writeWord hbelow (by rw [dmemBytes]; omega) v⟩
  · rcases dataCheck_cases a with ⟨hna, -⟩ | ⟨-, hnr, -⟩ | ⟨-, -, hc⟩
    · exact absurd ha hna
    · exact absurd hnr (Nat.not_le.mpr hr)
    · rw [dataRead_of_check_ok hc, Memory.readWord_writeWord_same hm]
  · rcases dataCheck_cases b with ⟨-, hc⟩ | ⟨-, -, hc⟩ | ⟨hb4, -, hc⟩
    · rw [dataRead_of_check_error hc, dataRead_of_check_error hc]
    · rw [dataRead_of_check_error hc, dataRead_of_check_error hc]
    · have hne : b.toNat ≠ a.toNat := hb ∘ BitVec.eq_of_toNat_eq
      rw [dataRead_of_check_ok hc, dataRead_of_check_ok hc, Memory.readWord_writeWord_of_disjoint hm v (by omega)]

/-- Settles O43: by what the port's checks answer. -/
theorem dataPortChecksAndMoves : Obligations.DataPortChecksAndMoves := by
  intro m a v
  rcases dataCheck_cases a with ⟨ha, hc⟩ | ⟨ha, hr, hc⟩ | ⟨ha, hr, hc⟩
  · refine ⟨?_, fun _ => dataWrite_of_check_error hc, fun h => absurd h ha, fun h => absurd h ha⟩
    rw [dataRead_of_check_error hc, if_pos ha]
  · refine ⟨?_, fun h => absurd ha h, fun _ _ => dataWrite_of_check_error hc, fun _ h => absurd hr (Nat.not_le.mpr h)⟩
    rw [dataRead_of_check_error hc, if_neg (not_not.mpr ha), if_pos hr]
  · refine ⟨?_, fun h => absurd ha h, fun _ h => absurd h (Nat.not_le.mpr hr), fun _ _ hm => ?_⟩
    · rw [dataRead_of_check_ok hc, if_neg (not_not.mpr ha), if_neg (Nat.not_le.mpr hr)]
      rfl
    · obtain ⟨h0, h1, h2, h3⟩ := Memory.bytes_writeWord hm a.toNat v
      exact ⟨_, dataWrite_of_check_ok hc, h0, h1, h2, h3, fun _ hx => Memory.read_writeWord_of_outside hm v hx⟩

/-- Settles O42: what a fetch can answer, with the alignment in numbers. -/
theorem fetchReadsTheWordOrFaults : Obligations.FetchReadsTheWordOrFaults := by
  intro policy m a
  rcases ifetch_cases policy m a with ⟨ha, he⟩ | ⟨ha, hr, rfl, he⟩ | ⟨ha, hr, rfl, he⟩ | ⟨ha, hr, he⟩
  · have ha4 : a.toNat % 4 ≠ 0 := fun h => Bool.eq_false_iff.mp ha ((aligned_iff a).mpr h)
    rw [he, if_pos ha4]
  all_goals
    have ha4 : ¬ a.toNat % 4 ≠ 0 := not_not.mpr ((aligned_iff a).mp ha)
    rw [imemBytes] at hr
  · rw [he, if_neg ha4, if_pos hr, if_pos rfl]
  · rw [he, if_neg ha4, if_pos hr, if_neg (by decide)]
  · rw [he, if_neg ha4, if_neg (Nat.not_le.mpr hr)]
    rfl

/-- Settles O19: the fetch faults or answers the sentinel's word. -/
theorem fetchBeyondCapacityUnderEachPolicy : Obligations.FetchBeyondCapacityUnderEachPolicy := by
  intro s hrun h4 hr
  have hfetch (policy : FetchPolicy) : ifetch policy s.imem s.pc =
      if policy = .fault then .error .fetchOutOfRange else .ok 0#32 := by
    rw [fetchReadsTheWordOrFaults, if_neg (not_not.mpr h4), if_pos hr]
  have hfault : fetchDecode .fault s = .error (.fetchOutOfRange, none) := by simp [fetchDecode, hfetch]
  have hzero : fetchDecode .zero s = .ok .haltSentinel := fetchDecode_ok_iff.mpr ⟨0#32, by simp [hfetch], decodeWord_zero⟩
  exact ⟨stepUnder_of_error hrun hfault, stepUnder_of_ok hrun hzero, rfl⟩

end Sys2Proof.Machine
end

section
/-! CLAIM. No cycle uses a memory beyond the fetch (spec/20_memory.md R57, R61, R65, R68). -/

namespace Sys2Proof.Machine

variable {s t : State}

/-! ### The memories are kept -/

theorem exec_memories {i : Instr} (h : exec i s = .next t) : t.imem = s.imem ∧ t.dmem = s.dmem := by
  rcases exec_cases i s with ⟨-, he⟩ | ⟨rd, v, he⟩ | ⟨_, _, _, _, hi, lo, -, he⟩ | ⟨target, -, he⟩ <;>
    cases he.symm.trans h
  · exact ⟨rfl, rfl⟩
  · exact ⟨writeResult_imem s rd v, writeResult_dmem s rd v⟩
  · exact ⟨rfl, rfl⟩
  · exact ⟨rfl, rfl⟩

theorem stateAfter_memories (n : Nat) (s : State) : (stateAfter n s).imem = s.imem ∧ (stateAfter n s).dmem = s.dmem :=
  stateAfter_induction (P := fun t => t.imem = s.imem ∧ t.dmem = s.dmem)
    (fun _ _ hc ⟨hi, hd⟩ => ⟨hc.imem_eq.trans hi, hc.dmem_eq.trans hd⟩) n s ⟨rfl, rfl⟩

/-! ### The control table (R131) -/

/-- The rows of the control table are those of the four opcodes, and none has `MemRead` or `MemWrite`. -/
theorem controlRow_noMemoryAccess {op : BitVec 6} {c : ControlRow} (h : controlRow op = some c) :
    c.memRead = false ∧ c.memWrite = false := by
  unfold controlRow at h
  split_ifs at h <;> cases h <;> exact ⟨rfl, rfl⟩

/-! ### The data memory is not read -/

theorem writeResult_withDmem (s : State) (m : Memory) (rd : Reg) (v : Word) :
    writeResult { s with dmem := m } rd v = { writeResult s rd v with dmem := m } := by
  unfold writeResult writeReg
  split <;> rfl

theorem exec_withDmem (i : Instr) (m : Memory) (h : exec i s = .next t) :
    exec i { s with dmem := m } = .next { t with dmem := m } := by
  cases i with
  | add | move | addi | mflo =>
    cases h
    exact congrArg Host.Outcome.next (writeResult_withDmem ..)
  | nop | haltSentinel | mult | beq | j =>
    cases h
    rfl

theorem step_withDmem (m : Memory) (h : step s = .next t) : step { s with dmem := m } = .next { t with dmem := m } := by
  have hfetch : fetchDecode fetchOorPolicy { s with dmem := m } = fetchDecode fetchOorPolicy s := fetchDecode_congr rfl rfl
  rcases stepUnder_cases fetchOorPolicy s with ⟨hs, he⟩ | ⟨cause, word, hr, hf, he⟩ | ⟨i, hr, hf, he⟩
  · cases he.symm.trans h
    exact stepUnder_of_ended hs
  · cases he.symm.trans h
    exact stepUnder_of_error hr (hfetch.trans hf)
  · have hstep : step { s with dmem := m } = exec i { s with dmem := m } := stepUnder_of_ok hr (hfetch.trans hf)
    exact hstep.trans (exec_withDmem i m (he.symm.trans h))

/-! ### No data fault (R61) -/

theorem fetchDecode_error_not_data {policy : FetchPolicy} {cause : Fault} {word : Option Word}
    (h : fetchDecode policy s = .error (cause, word)) : cause ≠ .dataMisaligned ∧ cause ≠ .dataOutOfRange := by
  rcases fetchDecode_error_cases h with ⟨-, rfl, -⟩ | ⟨-, -, -, rfl, -⟩ | ⟨-, e, -, -, rfl, -⟩
  · decide
  · decide
  · cases e <;> decide

/-- A fault that a RUNNING machine steps into is what fetch and decode reported. -/
theorem CycleResult.fetchDecode_of_faulted {cause : Fault} {pc : Word} {word : Option Word} (h : CycleResult s t)
    (hr : s.status = .running) (ht : t.status = .faulted cause pc word) :
    fetchDecode fetchOorPolicy s = .error (cause, word) := by
  cases h with
  | ended hs => exact absurd hr hs
  | faulted hf =>
    cases ht
    exact hf
  | halted | wroteRegister | wroteHiLo | movedPc => simp [hr] at ht

/-- Settles O20: both memories are kept by every meaning and every cycle, no control row accesses one, a cycle is blind to the
data memory, and a fault comes from fetch or decode. -/
theorem noInstructionTouchesAMemory : Obligations.NoInstructionTouchesAMemory :=
  ⟨fun _ _ _ => exec_memories, stateAfter_memories, fun _ _ => controlRow_noMemoryAccess, fun _ _ m => step_withDmem m,
    fun _ _ _ _ _ hr h ht => fetchDecode_error_not_data ((cycleResult_of_step h).fetchDecode_of_faulted hr ht)⟩

end Sys2Proof.Machine
end

section
/-! SUPPORT. The decoder the other way round (spec/30_encoding.md R84, R85, R92, R94): what a decoded instruction encodes to, which
words are refused, and what a mask keeps of a word. -/

namespace Sys2Proof

open Sys2Proof.Laws

variable {v w m p : Word}

/-! ### Encode of decode -/

theorem fitsSigned16_iff {k : Int} : fitsSigned16 k = true ↔ -32768 ≤ k ∧ k ≤ 32767 := by simp [fitsSigned16]

theorem fitsSigned16_toInt (b : BitVec 16) : fitsSigned16 b.toInt = true :=
  fitsSigned16_iff.mpr ⟨BitVec.le_toInt b, Int.le_of_lt_add_one (BitVec.toInt_lt (x := b))⟩

theorem fitsUnsigned26_toNat (b : BitVec 26) : fitsUnsigned26 b.toNat = true := decide_eq_true b.isLt

theorem wellFormed_of_decodeWord {i : Instr} (h : decodeWord w = .ok i) : i.wellFormed = true := by
  rcases decodeWord_ok_cases h with ⟨-, rfl⟩ | ⟨-, -, -, rfl⟩ | ⟨-, -, -, rfl⟩ | ⟨-, -, -, rfl⟩ | ⟨-, -, rfl⟩ | ⟨-, -, rfl⟩ |
    ⟨-, -, rfl⟩
  iterate 4 rfl
  · exact fitsSigned16_toInt _
  · exact fitsSigned16_toInt _
  · exact fitsUnsigned26_toNat _

/-- No decoded instruction is an assembler name (log 8). -/
theorem canonical_of_decodeWord {i : Instr} (h : decodeWord w = .ok i) : i.canonical = i := by
  cases i with
  | move rd rs shamt => exact absurd h (Machine.decodeWord_ne_move w rd rs shamt)
  | nop => exact absurd h (Machine.decodeWord_ne_nop w)
  | add | mult | mflo | haltSentinel | addi | beq | j => rfl

theorem encodeFields_of_decodeWord {i : Instr} (h : decodeWord w = .ok i) : encodeFields i = w := by
  rcases decodeWord_ok_cases h with ⟨rfl, rfl⟩ | ⟨-, ho, hf, rfl⟩ | ⟨-, ho, hf, rfl⟩ | ⟨-, ho, hf, rfl⟩ | ⟨-, ho, rfl⟩ |
    ⟨-, ho, rfl⟩ | ⟨-, ho, rfl⟩
  · rfl
  iterate 3 simpa [encodeFields, hf] using encR_fields ho
  iterate 2 simpa [encodeFields, ho] using encI_fields w
  · simpa [encodeFields, ho] using encJ_fields w

/-! ### Refused words (R92) -/

theorem decodeWord_of_illegalOpcode (hr : opcodeOf w ≠ opcRtype) (ha : opcodeOf w ≠ opcAddi) (hb : opcodeOf w ≠ opcBeq)
    (hj : opcodeOf w ≠ opcJ) : decodeWord w = .error .illegalOpcode := by
  have h0 : w ≠ 0#32 := by
    rintro rfl
    exact hr (by decide)
  rw [decodeWord, if_neg h0, if_neg hr, if_neg ha, if_neg hb, if_neg hj]

theorem decodeWord_of_illegalFunct (h0 : w ≠ 0#32) (hr : opcodeOf w = opcRtype) (ha : functOf w ≠ functAdd)
    (hm : functOf w ≠ functMult) (hl : functOf w ≠ functMflo) : decodeWord w = .error .illegalFunct := by
  rw [decodeWord, if_neg h0, if_pos hr, if_neg ha, if_neg hm, if_neg hl]

/-- Everything a refused word can be. -/
theorem decodeWord_error_cases {e : DecodeError} (h : decodeWord w = .error e) :
    (e = .illegalOpcode ∧ opcodeOf w ≠ opcRtype ∧ opcodeOf w ≠ opcAddi ∧ opcodeOf w ≠ opcBeq ∧ opcodeOf w ≠ opcJ) ∨
    (e = .illegalFunct ∧ w ≠ 0#32 ∧ opcodeOf w = opcRtype ∧ functOf w ≠ functAdd ∧ functOf w ≠ functMult ∧
      functOf w ≠ functMflo) := by
  unfold decodeWord at h
  split_ifs at h <;> cases h
  · exact .inr ⟨rfl, ‹_›, ‹_›, ‹_›, ‹_›, ‹_›⟩
  · exact .inl ⟨rfl, ‹_›, ‹_›, ‹_›, ‹_›⟩

theorem decodeWord_eq_illegalOpcode_iff : decodeWord w = .error .illegalOpcode ↔
    opcodeOf w ≠ opcRtype ∧ opcodeOf w ≠ opcAddi ∧ opcodeOf w ≠ opcBeq ∧ opcodeOf w ≠ opcJ := by
  refine ⟨fun h => ?_, fun ⟨hr, ha, hb, hj⟩ => decodeWord_of_illegalOpcode hr ha hb hj⟩
  rcases decodeWord_error_cases h with ⟨-, hops⟩ | ⟨he, -⟩
  · exact hops
  · cases he

theorem decodeWord_eq_illegalFunct_iff : decodeWord w = .error .illegalFunct ↔
    w ≠ 0#32 ∧ opcodeOf w = opcRtype ∧ functOf w ≠ functAdd ∧ functOf w ≠ functMult ∧ functOf w ≠ functMflo := by
  refine ⟨fun h => ?_, fun ⟨h0, hr, ha, hm, hl⟩ => decodeWord_of_illegalFunct h0 hr ha hm hl⟩
  rcases decodeWord_error_cases h with ⟨he, -⟩ | ⟨-, hfuncts⟩
  · cases he
  · exact hfuncts

/-! ### Masked words -/

/-- A field that the mask keeps whole is the same in words that agree under the mask. -/
theorem extractLsb'_eq_of_and_eq {start len : Nat} (hm : m.extractLsb' start len = BitVec.allOnes len)
    (h : v &&& m = w &&& m) : v.extractLsb' start len = w.extractLsb' start len := by
  simpa [BitVec.extractLsb'_and, hm] using congrArg (BitVec.extractLsb' start len) h

/-- Words that agree under the whole mask are the same word. -/
theorem eq_of_and_eq (hm : m = BitVec.allOnes 32) (h : v &&& m = w &&& m) : v = w := by
  rwa [hm, BitVec.and_allOnes, BitVec.and_allOnes] at h

/-- Words agree under a mask exactly when their fields agree under the mask's fields. -/
theorem and_eq_and_iff : v &&& m = w &&& m ↔
    opcodeOf v &&& opcodeOf m = opcodeOf w &&& opcodeOf m ∧ rsOf v &&& rsOf m = rsOf w &&& rsOf m ∧
    rtOf v &&& rtOf m = rtOf w &&& rtOf m ∧ rdOf v &&& rdOf m = rdOf w &&& rdOf m ∧
    shamtOf v &&& shamtOf m = shamtOf w &&& shamtOf m ∧ functOf v &&& functOf m = functOf w &&& functOf m := by
  obtain ⟨vo, vs, vt, vd, vh, vf⟩ := fields_and v m
  obtain ⟨wo, ws, wt, wd, wh, wf⟩ := fields_and w m
  rw [← vo, ← vs, ← vt, ← vd, ← vh, ← vf, ← wo, ← ws, ← wt, ← wd, ← wh, ← wf]
  exact ⟨fun h => by simp [h], fun ⟨ho, hs, ht, hd, hh, hf⟩ => word_ext ho hs ht hd hh hf⟩

/-- A row whose mask keeps the opcode and no field between opcode and funct. -/
theorem hits_iff_fields (mnemonic : String) (hm : opcodeOf m = BitVec.allOnes 6 ∧ rsOf m = 0#5 ∧ rtOf m = 0#5 ∧
    rdOf m = 0#5 ∧ shamtOf m = 0#5) (hp : p &&& m = p) : OpRow.hits ⟨mnemonic, m, p⟩ w = true ↔
    opcodeOf w = opcodeOf p ∧ functOf w &&& functOf m = functOf p &&& functOf m := by
  obtain ⟨ho, hs, ht, hd, hh⟩ := hm
  rw [OpRow.hits, beq_iff_eq, ← hp, and_eq_and_iff, hp, ho, hs, ht, hd, hh]
  simp only [BitVec.and_allOnes, BitVec.and_zero, true_and]

theorem hits_opcodeMask_iff (mnemonic : String) (hp : p &&& 0xFC000000#32 = p) :
    OpRow.hits ⟨mnemonic, 0xFC000000#32, p⟩ w = true ↔ opcodeOf w = opcodeOf p := by
  have hf : functOf 0xFC000000#32 = 0#6 := by decide
  rw [hits_iff_fields mnemonic (by decide) hp, hf, BitVec.and_zero, BitVec.and_zero, and_iff_left rfl]

theorem hits_functMask_iff (mnemonic : String) (hp : p &&& 0xFC00003F#32 = p) :
    OpRow.hits ⟨mnemonic, 0xFC00003F#32, p⟩ w = true ↔ opcodeOf w = opcodeOf p ∧ functOf w = functOf p := by
  have hf : functOf 0xFC00003F#32 = BitVec.allOnes 6 := by decide
  rw [hits_iff_fields mnemonic (by decide) hp, hf, BitVec.and_allOnes, BitVec.and_allOnes]

/-- A row whose mask is the whole word. -/
theorem hits_wholeMask_iff (mnemonic : String) : OpRow.hits ⟨mnemonic, 0xFFFFFFFF#32, p⟩ w = true ↔ w = p := by
  have hm : (0xFFFFFFFF#32 : Word) = BitVec.allOnes 32 := by decide
  rw [OpRow.hits, beq_iff_eq, hm, BitVec.and_allOnes]

end Sys2Proof
end

section
/-! CLAIM. The codec: decode and encode undo each other, which words are illegal, the opcode table, and the unused fields
(spec/30_encoding.md R84 to R94; spec/opcode_table.json). -/

namespace Sys2Proof

open Sys2Proof.Laws Sys2Proof.Machine

variable {w : Word}

/-- Settles O3: decoding a word's bytes is decoding the word, and that undoes the composition of its fields. -/
theorem decodeOfEncode : Obligations.DecodeOfEncode := by
  intro i w rest h
  rw [decodeBytes_bytesOfWord, decodeWord_of_encode h]

/-- Settles O4: a word is the composition of its fields, and a decoded instruction keeps every one of them. -/
theorem encodeOfDecode : Obligations.EncodeOfDecode := fun _ _ h =>
  have hwf := wellFormed_of_decodeWord h
  ⟨hwf, canonical_of_decodeWord h, encode_eq_some_iff.mpr ⟨hwf, encodeFields_of_decodeWord h⟩⟩

/-! ### Fields -/

theorem signExtend32_immField {v : Int} (h : fitsSigned16 v = true) : signExtend32 (immField v) = BitVec.ofInt 32 v := by
  rw [signExtend32, BitVec.signExtend, toInt_immField h]

/-- Settles O2: each field is extracted as composed, and a signed value that fits its field is extended back to itself. -/
theorem fieldsOfComposedWords : Obligations.FieldsOfComposedWords := by
  refine ⟨fun rs rt rd shamt funct => ?_, fun op rs rt imm => ?_, fun op target => ?_, fun op rs rt v hlo hhi => ?_⟩
  · exact ⟨opcodeOf_encR .., rsOf_encR .., rtOf_encR .., rdOf_encR .., shamtOf_encR .., functOf_encR ..⟩
  · exact ⟨opcodeOf_encI .., rsOf_encI .., rtOf_encI .., immOf_encI ..⟩
  · exact ⟨opcodeOf_encJ .., targetOf_encJ ..⟩
  · rw [immOf_encI, signExtend32_immField (fitsSigned16_iff.mpr ⟨hlo, hhi⟩)]

/-! ### Illegal words -/

/-- A RUNNING machine that fetches a refused word takes the fault with that word. -/
theorem step_of_fetch_decode_error {s : State} {e : DecodeError} (hr : s.status = .running)
    (hf : ifetch fetchOorPolicy s.imem s.pc = .ok w) (hd : decodeWord w = .error e) :
    step s = .next (raiseFault (faultOfDecode e) (some w) s) :=
  stepUnder_of_error hr (by simp [fetchDecode, hf, hd])

/-- Settles O5: by what the decoder refuses and the fault a step takes for it. -/
theorem illegalWordsRaiseTheirFault : Obligations.IllegalWordsRaiseTheirFault := by
  refine ⟨fun w => decodeWord_eq_illegalOpcode_iff, fun w => decodeWord_eq_illegalFunct_iff, by decide, by decide, ?_⟩
  intro s w hr hf
  refine ⟨step_of_fetch_decode_error hr hf, step_of_fetch_decode_error hr hf, ?_⟩
  rintro rfl
  exact step_of_fetch_decode hr hf decodeWord_zero

/-! ### The opcode table -/

/-- A word that matches a row decodes to that row's instruction. -/
theorem decodeWord_of_hits {r : OpRow} (hr : r ∈ coreRows) (h : r.hits w = true) :
    ∃ i, decodeWord w = .ok i ∧ r.mnemonic = i.mnemonic := by
  simp only [coreRows, List.mem_cons, List.not_mem_nil, or_false] at hr
  rcases hr with rfl | rfl | rfl | rfl | rfl | rfl | rfl
  · obtain ⟨ho, hf⟩ := (hits_functMask_iff _ (by decide)).mp h
    exact ⟨_, decodeWord_of_add ho hf, rfl⟩
  · obtain ⟨ho, hf⟩ := (hits_functMask_iff _ (by decide)).mp h
    exact ⟨_, decodeWord_of_mult ho hf, rfl⟩
  · obtain ⟨ho, hf⟩ := (hits_functMask_iff _ (by decide)).mp h
    exact ⟨_, decodeWord_of_mflo ho hf, rfl⟩
  · obtain rfl := (hits_wholeMask_iff _).mp h
    exact ⟨_, decodeWord_zero, rfl⟩
  · exact ⟨_, decodeWord_of_addi ((hits_opcodeMask_iff _ (by decide)).mp h), rfl⟩
  · exact ⟨_, decodeWord_of_beq ((hits_opcodeMask_iff _ (by decide)).mp h), rfl⟩
  · exact ⟨_, decodeWord_of_j ((hits_opcodeMask_iff _ (by decide)).mp h), rfl⟩

/-- A word that decodes matches its instruction's row. -/
theorem hits_of_decodeWord {i : Instr} (h : decodeWord w = .ok i) :
    ∃ r ∈ coreRows, r.hits w = true ∧ r.mnemonic = i.mnemonic := by
  rcases decodeWord_ok_cases h with ⟨rfl, rfl⟩ | ⟨-, ho, hf, rfl⟩ | ⟨-, ho, hf, rfl⟩ | ⟨-, ho, hf, rfl⟩ | ⟨-, ho, rfl⟩ |
    ⟨-, ho, rfl⟩ | ⟨-, ho, rfl⟩
  · exact ⟨coreRows[3], by decide, (hits_wholeMask_iff _).mpr rfl, rfl⟩
  · exact ⟨coreRows[0], by decide, (hits_functMask_iff _ (by decide)).mpr ⟨ho, hf⟩, rfl⟩
  · exact ⟨coreRows[1], by decide, (hits_functMask_iff _ (by decide)).mpr ⟨ho, hf⟩, rfl⟩
  · exact ⟨coreRows[2], by decide, (hits_functMask_iff _ (by decide)).mpr ⟨ho, hf⟩, rfl⟩
  · exact ⟨coreRows[4], by decide, (hits_opcodeMask_iff _ (by decide)).mpr ho, rfl⟩
  · exact ⟨coreRows[5], by decide, (hits_opcodeMask_iff _ (by decide)).mpr ho, rfl⟩
  · exact ⟨coreRows[6], by decide, (hits_opcodeMask_iff _ (by decide)).mpr ho, rfl⟩

theorem coreRows_mnemonic_injective : ∀ r ∈ coreRows, ∀ r' ∈ coreRows, r.mnemonic = r'.mnemonic → r = r' := by decide

/-- Settles O6: a matched row and the decoded instruction have one mnemonic, and a mnemonic has one row. -/
theorem decoderFollowsTheTable : Obligations.DecoderFollowsTheTable := by
  refine fun w => ⟨fun r hr r' hr' h h' => ?_, fun i => hits_of_decodeWord, fun r => decodeWord_of_hits⟩
  obtain ⟨i, hi, hname⟩ := decodeWord_of_hits hr h
  obtain ⟨i', hi', hname'⟩ := decodeWord_of_hits hr' h'
  cases hi.symm.trans hi'
  exact coreRows_mnemonic_injective r hr r' hr' (hname.trans hname'.symm)

/-! ### Unused fields -/

/-- Settles O7: the fields the mask keeps decide the decoding and the operands, and no meaning looks at the others. -/
theorem unusedFieldsDoNotMatter : Obligations.UnusedFieldsDoNotMatter := by
  intro w w' i h hm
  have hwhole : usedMask i = BitVec.allOnes 32 → ∃ i', decodeWord w' = .ok i' ∧ ∀ s, exec i' s = exec i s := fun hmask =>
    ⟨i, eq_of_and_eq hmask hm ▸ h, fun _ => rfl⟩
  rcases decodeWord_ok_cases h with ⟨-, rfl⟩ | ⟨-, ho, hf, rfl⟩ | ⟨-, ho, hf, rfl⟩ | ⟨-, ho, hf, rfl⟩ | ⟨-, -, rfl⟩ |
    ⟨-, -, rfl⟩ | ⟨-, -, rfl⟩
  · exact hwhole rfl
  · rw [usedMask] at hm
    have ho' : opcodeOf w = opcodeOf w' := extractLsb'_eq_of_and_eq (by decide) hm
    have hf' : functOf w = functOf w' := extractLsb'_eq_of_and_eq (by decide) hm
    have hs : rsOf w = rsOf w' := extractLsb'_eq_of_and_eq (by decide) hm
    have ht : rtOf w = rtOf w' := extractLsb'_eq_of_and_eq (by decide) hm
    have hd : rdOf w = rdOf w' := extractLsb'_eq_of_and_eq (by decide) hm
    exact ⟨_, decodeWord_of_add (ho' ▸ ho) (hf' ▸ hf), fun _ => by rw [hs, ht, hd]; rfl⟩
  · rw [usedMask] at hm
    have ho' : opcodeOf w = opcodeOf w' := extractLsb'_eq_of_and_eq (by decide) hm
    have hf' : functOf w = functOf w' := extractLsb'_eq_of_and_eq (by decide) hm
    have hs : rsOf w = rsOf w' := extractLsb'_eq_of_and_eq (by decide) hm
    have ht : rtOf w = rtOf w' := extractLsb'_eq_of_and_eq (by decide) hm
    exact ⟨_, decodeWord_of_mult (ho' ▸ ho) (hf' ▸ hf), fun _ => by rw [hs, ht]; rfl⟩
  · rw [usedMask] at hm
    have ho' : opcodeOf w = opcodeOf w' := extractLsb'_eq_of_and_eq (by decide) hm
    have hf' : functOf w = functOf w' := extractLsb'_eq_of_and_eq (by decide) hm
    have hd : rdOf w = rdOf w' := extractLsb'_eq_of_and_eq (by decide) hm
    exact ⟨_, decodeWord_of_mflo (ho' ▸ ho) (hf' ▸ hf), fun _ => by rw [hd]; rfl⟩
  all_goals exact hwhole rfl

end Sys2Proof
end

section
/-! SUPPORT. One instruction line (spec/30_encoding.md R104 to R108): the register names, an equation for each mnemonic with its
operands, and the errors its operands can give. -/

namespace Sys2Proof.Machine

/-! ### Register names (R24, R105) -/

section
variable {policy : UnknownRegPolicy} {name : Text}

/-- A text that is none of the 32 register names. -/
def IsUnknownRegister (name : Text) : Prop := ∀ r : Reg, name ≠ registerNames[r.val].toList

theorem lookup_registerTable (r : Reg) : registerTable.lookup registerNames[r.val].toList = some r := by
  revert r
  decide

theorem fst_of_mem_registerTable : ∀ e ∈ registerTable, e.1 = registerNames[e.2.val].toList := by decide

theorem lookup_registerTable_of_unknown (h : IsUnknownRegister name) : registerTable.lookup name = none := by
  refine List.lookup_eq_none_iff.mpr fun e he => ?_
  rw [fst_of_mem_registerTable e he]
  exact bne_iff_ne.mpr (h e.2)

@[simp] theorem registerOf_name (policy : UnknownRegPolicy) (r : Reg) :
    registerOf policy registerNames[r.val].toList = .ok r := by
  unfold registerOf
  rw [lookup_registerTable]

theorem registerOf_error_of_unknown (h : IsUnknownRegister name) :
    registerOf .error name = .error (.unknownRegister name) := by
  rw [registerOf, lookup_registerTable_of_unknown h]

theorem registerOf_zero_of_unknown (h : IsUnknownRegister name) : registerOf .zero name = .ok 0 := by
  rw [registerOf, lookup_registerTable_of_unknown h]

/-- Everything a register operand can give. -/
theorem registerOf_cases (policy : UnknownRegPolicy) (name : Text) :
    (∃ r, registerOf policy name = .ok r) ∨
    (policy = .error ∧ registerOf policy name = .error (.unknownRegister name)) := by
  by_cases h : IsUnknownRegister name
  · cases policy with
    | error => exact .inr ⟨rfl, registerOf_error_of_unknown h⟩
    | zero => exact .inl ⟨0, registerOf_zero_of_unknown h⟩
  · obtain ⟨r, hr⟩ := not_forall_not.mp h
    exact .inl ⟨r, by rw [hr, registerOf_name]⟩

end

/-! ### An equation for each mnemonic -/

section
variable (policy : UnknownRegPolicy) (table : List LabelEntry) (address : Nat) (a b c : Text)

theorem instrOfLine_add : instrOfLine policy table address "add".toList [a, b, c] = (do
    let rd ← registerOf policy a
    let rs ← registerOf policy b
    let rt ← registerOf policy c
    return .add rd rs rt 0#5) := rfl

theorem instrOfLine_move : instrOfLine policy table address "move".toList [a, b] = (do
    let rd ← registerOf policy a
    let rs ← registerOf policy b
    return .move rd rs 0#5) := rfl

theorem instrOfLine_mult : instrOfLine policy table address "mult".toList [a, b] = (do
    let rs ← registerOf policy a
    let rt ← registerOf policy b
    return .mult rs rt 0#5 0#5) := rfl

theorem instrOfLine_mflo : instrOfLine policy table address "mflo".toList [a] = (do
    let rd ← registerOf policy a
    return .mflo rd 0#5 0#5 0#5) := rfl

theorem instrOfLine_nop : instrOfLine policy table address "nop".toList [] = .ok .nop := rfl

theorem instrOfLine_addi : instrOfLine policy table address "addi".toList [a, b, c] = (do
    let rt ← registerOf policy a
    let rs ← registerOf policy b
    let imm ← immediateOf c
    return .addi rt rs imm) := rfl

theorem instrOfLine_beq : instrOfLine policy table address "beq".toList [a, b, c] = (do
    let rs ← registerOf policy a
    let rt ← registerOf policy b
    let off ← offsetOf table address c
    return .beq rs rt off) := rfl

theorem instrOfLine_j : instrOfLine policy table address "j".toList [a] = (do
    let target ← jumpIndexOf table a
    return .j target) := rfl

end

/-! ### The mnemonic and the operand count (R107, R108) -/

section
variable {policy : UnknownRegPolicy} {table : List LabelEntry} {address count : Nat} {mnemonic : Text} {operands : List Text}

theorem instrOfLine_of_unknown (h : mnemonicCounts.lookup mnemonic = none) :
    instrOfLine policy table address mnemonic operands = .error .unknownMnemonic := by
  rw [instrOfLine, h]

theorem instrOfLine_of_length_ne (h : mnemonicCounts.lookup mnemonic = some count) (hlen : operands.length ≠ count) :
    instrOfLine policy table address mnemonic operands = .error (.operandCount count operands.length) := by
  rw [instrOfLine, h]
  exact if_neg hlen

/-- The mnemonics have one count each. -/
theorem lookup_mnemonicCounts : ∀ c ∈ mnemonicCounts, mnemonicCounts.lookup c.1 = some c.2 := by decide

theorem mem_mnemonicCounts_of_lookup (h : mnemonicCounts.lookup mnemonic = some count) :
    (mnemonic, count) ∈ mnemonicCounts := by
  obtain ⟨l₁, l₂, hsplit, -⟩ := List.lookup_eq_some_iff.mp h
  simp [hsplit]

end

/-! ### The errors of operands -/

/-- What an operand of a line with a known mnemonic and the right count can be reported for. -/
inductive IsOperandError (policy : UnknownRegPolicy) : AsmError → Prop where
  | unknownRegister (hp : policy = .error) (name : Text) : IsOperandError policy (.unknownRegister name)
  | badLiteral (text : Text) : IsOperandError policy (.badLiteral text)
  | undefinedLabel (name : Text) : IsOperandError policy (.undefinedLabel name)
  | badJumpAddress : IsOperandError policy .badJumpAddress

/-- Every error of `x` is an operand's. -/
def OperandErrorsOnly (policy : UnknownRegPolicy) {α : Type} (x : Except AsmError α) : Prop :=
  ∀ e, x = .error e → IsOperandError policy e

section
variable {policy : UnknownRegPolicy} {α β : Type}

theorem OperandErrorsOnly.ok (v : α) : OperandErrorsOnly policy (.ok v) := fun _ h => nomatch h

theorem OperandErrorsOnly.bind {x : Except AsmError α} {f : α → Except AsmError β} (hx : OperandErrorsOnly policy x)
    (hf : ∀ v, OperandErrorsOnly policy (f v)) : OperandErrorsOnly policy (x >>= f) := by
  cases x with
  | error e => exact fun e' h => hx e' (by cases h; rfl)
  | ok v => exact hf v

theorem operandErrorsOnly_registerOf (name : Text) : OperandErrorsOnly policy (registerOf policy name) := by
  intro e h
  rcases registerOf_cases policy name with ⟨r, hr⟩ | ⟨hp, hr⟩ <;> cases hr.symm.trans h
  exact .unknownRegister hp name

theorem operandErrorsOnly_immediateOf (operand : Text) : OperandErrorsOnly policy (immediateOf operand) := by
  intro e h
  unfold immediateOf at h
  split at h <;> cases h
  exact .badLiteral operand

theorem operandErrorsOnly_offsetOf (table : List LabelEntry) (address : Nat) (operand : Text) :
    OperandErrorsOnly policy (offsetOf table address operand) := by
  intro e h
  unfold offsetOf at h
  repeat' split at h
  all_goals cases h
  exact .undefinedLabel operand

theorem operandErrorsOnly_jumpIndexOf (table : List LabelEntry) (operand : Text) :
    OperandErrorsOnly policy (jumpIndexOf table operand) := by
  intro e h
  unfold jumpIndexOf at h
  repeat' split at h
  all_goals cases h
  · exact .badJumpAddress
  · exact .undefinedLabel operand

/-- A line with a known mnemonic and the right operand count fails by an operand alone. -/
theorem operandErrorsOnly_instrOfLine {table : List LabelEntry} {address : Nat} {c : Text × Nat} {operands : List Text}
    (hc : c ∈ mnemonicCounts) (hlen : operands.length = c.2) :
    OperandErrorsOnly policy (instrOfLine policy table address c.1 operands) := by
  simp only [mnemonicCounts, List.mem_cons, List.not_mem_nil, or_false] at hc
  rcases hc with rfl | rfl | rfl | rfl | rfl | rfl | rfl | rfl
  · obtain ⟨a, b, c, rfl⟩ := List.length_eq_three.mp hlen
    rw [instrOfLine_add]
    exact (operandErrorsOnly_registerOf a).bind fun _ => (operandErrorsOnly_registerOf b).bind fun _ =>
      (operandErrorsOnly_registerOf c).bind fun _ => .ok _
  · obtain ⟨a, b, rfl⟩ := List.length_eq_two.mp hlen
    rw [instrOfLine_move]
    exact (operandErrorsOnly_registerOf a).bind fun _ => (operandErrorsOnly_registerOf b).bind fun _ => .ok _
  · obtain ⟨a, b, rfl⟩ := List.length_eq_two.mp hlen
    rw [instrOfLine_mult]
    exact (operandErrorsOnly_registerOf a).bind fun _ => (operandErrorsOnly_registerOf b).bind fun _ => .ok _
  · obtain ⟨a, rfl⟩ := List.length_eq_one_iff.mp hlen
    rw [instrOfLine_mflo]
    exact (operandErrorsOnly_registerOf a).bind fun _ => .ok _
  · obtain rfl := List.length_eq_zero_iff.mp hlen
    rw [instrOfLine_nop]
    exact .ok _
  · obtain ⟨a, b, c, rfl⟩ := List.length_eq_three.mp hlen
    rw [instrOfLine_addi]
    exact (operandErrorsOnly_registerOf a).bind fun _ => (operandErrorsOnly_registerOf b).bind fun _ =>
      (operandErrorsOnly_immediateOf c).bind fun _ => .ok _
  · obtain ⟨a, b, c, rfl⟩ := List.length_eq_three.mp hlen
    rw [instrOfLine_beq]
    exact (operandErrorsOnly_registerOf a).bind fun _ => (operandErrorsOnly_registerOf b).bind fun _ =>
      (operandErrorsOnly_offsetOf table address c).bind fun _ => .ok _
  · obtain ⟨a, rfl⟩ := List.length_eq_one_iff.mp hlen
    rw [instrOfLine_j]
    exact (operandErrorsOnly_jumpIndexOf table a).bind fun _ => .ok _

/-- Everything an instruction line can fail by: its mnemonic, its operand count, or an operand. -/
theorem instrOfLine_error_cases {table : List LabelEntry} {address : Nat} {mnemonic : Text} {operands : List Text}
    {e : AsmError} (h : instrOfLine policy table address mnemonic operands = .error e) :
    (mnemonicCounts.lookup mnemonic = none ∧ e = .unknownMnemonic) ∨
    (∃ count, mnemonicCounts.lookup mnemonic = some count ∧ operands.length ≠ count ∧
      e = .operandCount count operands.length) ∨
    (∃ count, mnemonicCounts.lookup mnemonic = some count ∧ operands.length = count ∧ IsOperandError policy e) := by
  cases hl : mnemonicCounts.lookup mnemonic with
  | none =>
    cases (instrOfLine_of_unknown hl).symm.trans h
    exact .inl ⟨rfl, rfl⟩
  | some count =>
    by_cases hlen : operands.length = count
    · exact .inr (.inr ⟨count, rfl, hlen, operandErrorsOnly_instrOfLine (mem_mnemonicCounts_of_lookup hl) hlen e h⟩)
    · cases (instrOfLine_of_length_ne hl hlen).symm.trans h
      exact .inr (.inl ⟨count, rfl, hlen, rfl⟩)

end

/-! ### The first unknown register is reported -/

/-- If one of the register operands is unknown, `x` is the error of one. -/
def ReportsUnknown {α : Type} (operands : List Text) (x : Except AsmError α) : Prop :=
  (∃ name ∈ operands, IsUnknownRegister name) →
    ∃ name ∈ operands, IsUnknownRegister name ∧ x = .error (.unknownRegister name)

section
variable {α : Type}

theorem ReportsUnknown.nil (x : Except AsmError α) : ReportsUnknown [] x := fun ⟨_, hmem, _⟩ => nomatch hmem

/-- Reading a register operand before the others. -/
theorem ReportsUnknown.cons {operands : List Text} {f : Reg → Except AsmError α} (name : Text)
    (hf : ∀ r, ReportsUnknown operands (f r)) : ReportsUnknown (name :: operands) (registerOf .error name >>= f) := by
  rintro ⟨x, hx, hunknown⟩
  by_cases hname : IsUnknownRegister name
  · exact ⟨name, List.mem_cons_self, hname, by rw [registerOf_error_of_unknown hname]; rfl⟩
  · obtain ⟨r, rfl⟩ := not_forall_not.mp hname
    rcases List.mem_cons.mp hx with rfl | hx
    · exact absurd hunknown hname
    · obtain ⟨y, hy, hyunknown, he⟩ := hf r ⟨x, hx, hunknown⟩
      exact ⟨y, List.mem_cons_of_mem _ hy, hyunknown, by rw [registerOf_name]; exact he⟩

end

/-! ### The word of a line -/

section
variable {policy : UnknownRegPolicy} {table : List LabelEntry} {n address : Nat} {mnemonic : Text} {operands : List Text}

theorem wordOfLine_of_instrOfLine_error {e : AsmError}
    (h : instrOfLine policy table address mnemonic operands = .error e) :
    wordOfLine policy table ⟨n, address, .instruction mnemonic operands⟩ = .error e := by
  simp [wordOfLine, h]

/-- An instruction gives its word, or does not fit it (R85). -/
theorem wordOfLine_of_instrOfLine_ok {i : Instr} (h : instrOfLine policy table address mnemonic operands = .ok i) :
    wordOfLine policy table ⟨n, address, .instruction mnemonic operands⟩ =
      if i.wellFormed = true then .ok (some (encodeFields i)) else .error .outOfRange := by
  cases hwf : i.wellFormed <;> simp [wordOfLine, h, encode, hwf]

theorem wordOfLine_of_wellFormed {i : Instr} (h : instrOfLine policy table address mnemonic operands = .ok i)
    (hwf : i.wellFormed = true) :
    wordOfLine policy table ⟨n, address, .instruction mnemonic operands⟩ = .ok (some (encodeFields i)) := by
  rw [wordOfLine_of_instrOfLine_ok h, if_pos hwf]

/-- A label line that is no error has a well-formed name, and its first binding is on that very line. -/
theorem label_of_wordOfLine_ok {p : PlacedLine} {o : Option Word} {before after : Text}
    (h : wordOfLine policy table p = .ok o) (hl : p.line = .label before after) :
    ∃ name, labelName before after = some name ∧ ∀ e, findLabel table name = some e → e.lineNumber = p.lineNumber := by
  unfold wordOfLine at h
  rw [hl] at h
  simp only at h
  cases hname : labelName before after with
  | none => simp [hname] at h
  | some name =>
    refine ⟨name, rfl, fun e he => ?_⟩
    by_contra hne
    simp [hname, he, hne] at h

end

/-! ### The reports of a source (R109) -/

section
variable {policy : UnknownRegPolicy} {table : List LabelEntry} {ps : List PlacedLine}

theorem mem_reportsOf {p : PlacedLine} {e : AsmError} (hp : p ∈ ps) (h : wordOfLine policy table p = .error e) :
    ⟨p.lineNumber, p.address, e⟩ ∈ reportsOf policy table ps := by
  rw [reportsOf, List.mem_filterMap]
  exact ⟨p, hp, by simp [h]⟩

theorem reports_of_assembleUnder_error {source : List Text} {reports : List AsmReport}
    (h : assembleUnder policy source = .error reports) :
    reports = reportsOf policy (labelTable (placeLines 1 0 source)) (placeLines 1 0 source) := by
  simp only [assembleUnder] at h
  split at h
  · cases h
  · next r rs hr =>
    cases h
    exact hr.symm

end

end Sys2Proof.Machine
end

section
/-! CLAIM. Which lines are wrong, and the words of the right ones (spec/30_encoding.md R105 to R117; spec/60_exceptions.md R259). -/

namespace Sys2Proof.Machine

open Sys2Proof.Laws

variable {policy : UnknownRegPolicy} {table : List LabelEntry} {address : Nat}

/-! ### Wrong lines -/

/-- The names of the eight mnemonics are those with an operand count. -/
theorem lookup_mnemonicCounts_eq_none_iff {mnemonic : Text} : mnemonicCounts.lookup mnemonic = none ↔
    mnemonic ∉ ["add".toList, "move".toList, "mult".toList, "mflo".toList, "nop".toList, "addi".toList, "beq".toList,
      "j".toList] := by
  have hnames : mnemonicCounts.map Prod.fst = ["add".toList, "move".toList, "mult".toList, "mflo".toList, "nop".toList,
      "addi".toList, "beq".toList, "j".toList] := rfl
  rw [← hnames, List.lookup_eq_none_iff]
  simp only [bne_iff_ne, List.mem_map, not_exists, not_and]
  exact forall₂_congr fun e _ => ⟨Ne.symm, Ne.symm⟩

theorem instrOfLine_eq_unknownMnemonic_iff {mnemonic : Text} {operands : List Text} :
    instrOfLine policy table address mnemonic operands = .error .unknownMnemonic ↔
      mnemonicCounts.lookup mnemonic = none := by
  refine ⟨fun h => ?_, instrOfLine_of_unknown⟩
  rcases instrOfLine_error_cases h with ⟨hl, -⟩ | ⟨_, -, -, he⟩ | ⟨_, -, -, he⟩
  · exact hl
  · cases he
  · cases he

/-- With the right count no other count is reported. -/
theorem instrOfLine_ne_operandCount {c : Text × Nat} {operands : List Text} (hc : c ∈ mnemonicCounts)
    (hlen : operands.length = c.2) (expected got : Nat) :
    instrOfLine policy table address c.1 operands ≠ .error (.operandCount expected got) := by
  intro h
  cases operandErrorsOnly_instrOfLine hc hlen _ h

/-- The quirk's policy reports no register. -/
theorem instrOfLine_zero_ne_unknownRegister (mnemonic name : Text) (operands : List Text) :
    instrOfLine .zero table address mnemonic operands ≠ .error (.unknownRegister name) := by
  intro h
  rcases instrOfLine_error_cases h with ⟨-, he⟩ | ⟨_, -, -, he⟩ | ⟨_, -, -, he⟩
  · cases he
  · cases he
  · cases he with
    | unknownRegister hp => cases hp

/-- The register operands of a line are read first and in order. -/
theorem reportsUnknown_instrOfLine {operands : List Text} {c : String × Nat × Nat}
    (hc : c ∈ [("add", 3, 3), ("move", 2, 2), ("mult", 2, 2), ("mflo", 1, 1), ("addi", 2, 3), ("beq", 2, 3)])
    (hlen : operands.length = c.2.2) :
    ReportsUnknown (operands.take c.2.1) (instrOfLine .error table address c.1.toList operands) := by
  simp only [List.mem_cons, List.not_mem_nil, or_false] at hc
  rcases hc with rfl | rfl | rfl | rfl | rfl | rfl
  · obtain ⟨a, b, c, rfl⟩ := List.length_eq_three.mp hlen
    exact .cons a fun _ => .cons b fun _ => .cons c fun _ => .nil _
  · obtain ⟨a, b, rfl⟩ := List.length_eq_two.mp hlen
    exact .cons a fun _ => .cons b fun _ => .nil _
  · obtain ⟨a, b, rfl⟩ := List.length_eq_two.mp hlen
    exact .cons a fun _ => .cons b fun _ => .nil _
  · obtain ⟨a, rfl⟩ := List.length_eq_one_iff.mp hlen
    exact .cons a fun _ => .nil _
  · obtain ⟨a, b, c, rfl⟩ := List.length_eq_three.mp hlen
    exact .cons a fun _ => .cons b fun _ => .nil _
  · obtain ⟨a, b, c, rfl⟩ := List.length_eq_three.mp hlen
    exact .cons a fun _ => .cons b fun _ => .nil _

/-- Settles O52: an image is the words of lines with no error, and a line fails by its mnemonic, its count or an operand. -/
theorem anyErrorGivesNoImage : Obligations.AnyErrorGivesNoImage := by
  refine ⟨fun policy source => ⟨⟨?_, ?_⟩, ?_⟩, ?_, ?_, ?_, ?_, ?_, ?_⟩
  · rintro ⟨ws, h⟩
    exact (assembleUnder_ok_iff.mp h).1
  · exact fun hok => ⟨_, assembleUnder_ok_iff.mpr ⟨hok, rfl⟩⟩
  · intro reports h p hp e he
    rw [reports_of_assembleUnder_error h]
    exact mem_reportsOf hp he
  · exact fun _ _ _ _ _ _ _ => wordOfLine_of_instrOfLine_error
  · exact fun _ _ _ _ _ => instrOfLine_eq_unknownMnemonic_iff.trans lookup_mnemonicCounts_eq_none_iff
  · intro policy table address operands c hc
    have hmem : (c.1.toList, c.2) ∈ mnemonicCounts := List.mem_map_of_mem (f := fun c => (c.1.toList, c.2)) hc
    exact ⟨instrOfLine_of_length_ne (lookup_mnemonicCounts _ hmem), instrOfLine_ne_operandCount hmem⟩
  · refine fun name => ⟨?_, fun h => ⟨registerOf_error_of_unknown h, registerOf_zero_of_unknown h⟩⟩
    rintro policy r rfl
    exact registerOf_name policy r
  · exact fun _ _ _ _ hc hlen => reportsUnknown_instrOfLine hc hlen
  · exact fun _ _ mnemonic name operands => instrOfLine_zero_ne_unknownRegister mnemonic name operands

/-! ### The words of right lines -/

/-- Settles O53: every register name is read, and every R-class instruction fits its word. -/
theorem rTypeLinesEncode : Obligations.RTypeLinesEncode := by
  intro policy table n address a b c
  refine ⟨wordOfLine_of_wellFormed (i := .add a b c 0#5) ?_ rfl, wordOfLine_of_wellFormed (i := .move a b 0#5) ?_ rfl,
    wordOfLine_of_wellFormed (i := .mult a b 0#5 0#5) ?_ rfl, wordOfLine_of_wellFormed (i := .mflo a 0#5 0#5 0#5) ?_ rfl⟩
  · simp only [instrOfLine_add, registerOf_name]; rfl
  · simp only [instrOfLine_move, registerOf_name]; rfl
  · simp only [instrOfLine_mult, registerOf_name]; rfl
  · simp only [instrOfLine_mflo, registerOf_name]; rfl

/-- Settles O54: with `FUNCT_NOP = 0` the word of `nop` is the sentinel's (log 2). -/
theorem nopLineGivesTheSentinel : Obligations.NopLineGivesTheSentinel := by
  have hzero : encR 0#5 0#5 0#5 0#5 functNop = 0#32 := encodeFields_nop
  intro policy table n address
  refine ⟨wordOfLine_of_wellFormed (instrOfLine_nop ..) rfl, hzero, ?_⟩
  rw [hzero, decodeWord_zero]

end Sys2Proof.Machine
end

section
/-! CLAIM. Lines with a literal or a label (spec/30_encoding.md R102, R106, R115 to R117): what the operand gives, and the word. -/

namespace Sys2Proof.Machine

variable {policy : UnknownRegPolicy} {table : List LabelEntry} {n address : Nat} {a b : Reg} {operand : Text} {v : Int}
  {entry : LabelEntry} {e : AsmError}

/-! ### The operand -/

theorem immediateOf_of_literal (h : literalOfText operand = some v) : immediateOf operand = .ok v := by
  simp [immediateOf, h]

theorem immediateOf_of_not_literal (h : literalOfText operand = none) :
    immediateOf operand = .error (.badLiteral operand) := by
  simp [immediateOf, h]

theorem offsetOf_of_literal (h : literalOfText operand = some v) : offsetOf table address operand = .ok v := by
  simp [offsetOf, h]

theorem offsetOf_of_label (h : literalOfText operand = none) (hl : findLabel table operand = some entry) :
    offsetOf table address operand = .ok (branchOffset address entry.address) := by
  simp [offsetOf, h, hl]

theorem offsetOf_of_undefined (h : literalOfText operand = none) (hl : findLabel table operand = none) :
    offsetOf table address operand = .error (.undefinedLabel operand) := by
  simp [offsetOf, h, hl]

theorem jumpIndexOf_of_literal (h : literalOfText operand = some v) : jumpIndexOf table operand =
    if 0 ≤ v ∧ v < 2 ^ 28 ∧ v % 4 = 0 then .ok (v / 4).toNat else .error .badJumpAddress := by
  simp [jumpIndexOf, h]

theorem jumpIndexOf_of_label (h : literalOfText operand = none) (hl : findLabel table operand = some entry) :
    jumpIndexOf table operand = .ok (entry.address / 4) := by
  simp [jumpIndexOf, h, hl]

theorem jumpIndexOf_of_undefined (h : literalOfText operand = none) (hl : findLabel table operand = none) :
    jumpIndexOf table operand = .error (.undefinedLabel operand) := by
  simp [jumpIndexOf, h, hl]

/-! ### The line -/

theorem instrOfLine_addi_names : instrOfLine policy table address "addi".toList
    [registerNames[a.val].toList, registerNames[b.val].toList, operand] = (immediateOf operand).map (.addi a b) := by
  simp only [instrOfLine_addi, registerOf_name]
  rfl

theorem instrOfLine_beq_names : instrOfLine policy table address "beq".toList
    [registerNames[a.val].toList, registerNames[b.val].toList, operand] =
      (offsetOf table address operand).map (.beq a b) := by
  simp only [instrOfLine_beq, registerOf_name]
  rfl

theorem instrOfLine_j_map : instrOfLine policy table address "j".toList [operand] =
    (jumpIndexOf table operand).map .j := rfl

theorem wordOfLine_addi (h : immediateOf operand = .ok v) : wordOfLine policy table ⟨n, address, .instruction "addi".toList
    [registerNames[a.val].toList, registerNames[b.val].toList, operand]⟩ =
      if -32768 ≤ v ∧ v ≤ 32767 then .ok (some (encI opcAddi (bitsOfReg b) (bitsOfReg a) (immField v)))
      else .error .outOfRange :=
  (wordOfLine_of_instrOfLine_ok (i := .addi a b v) (by rw [instrOfLine_addi_names, h]; rfl)).trans
    (if_congr fitsSigned16_iff rfl rfl)

theorem wordOfLine_beq (h : offsetOf table address operand = .ok v) : wordOfLine policy table
    ⟨n, address, .instruction "beq".toList [registerNames[a.val].toList, registerNames[b.val].toList, operand]⟩ =
      if -32768 ≤ v ∧ v ≤ 32767 then .ok (some (encI opcBeq (bitsOfReg a) (bitsOfReg b) (immField v)))
      else .error .outOfRange :=
  (wordOfLine_of_instrOfLine_ok (i := .beq a b v) (by rw [instrOfLine_beq_names, h]; rfl)).trans
    (if_congr fitsSigned16_iff rfl rfl)

theorem wordOfLine_j {index : Nat} (h : jumpIndexOf table operand = .ok index) :
    wordOfLine policy table ⟨n, address, .instruction "j".toList [operand]⟩ =
      if index < 2 ^ 26 then .ok (some (encJ opcJ (targetField index))) else .error .outOfRange :=
  (wordOfLine_of_instrOfLine_ok (i := .j index) (by rw [instrOfLine_j_map, h]; rfl)).trans
    (if_congr decide_eq_true_iff rfl rfl)

theorem wordOfLine_addi_error (h : immediateOf operand = .error e) : wordOfLine policy table
    ⟨n, address, .instruction "addi".toList [registerNames[a.val].toList, registerNames[b.val].toList, operand]⟩ =
      .error e :=
  wordOfLine_of_instrOfLine_error (by rw [instrOfLine_addi_names, h]; rfl)

theorem wordOfLine_beq_error (h : offsetOf table address operand = .error e) : wordOfLine policy table
    ⟨n, address, .instruction "beq".toList [registerNames[a.val].toList, registerNames[b.val].toList, operand]⟩ =
      .error e :=
  wordOfLine_of_instrOfLine_error (by rw [instrOfLine_beq_names, h]; rfl)

theorem wordOfLine_j_error (h : jumpIndexOf table operand = .error e) :
    wordOfLine policy table ⟨n, address, .instruction "j".toList [operand]⟩ = .error e :=
  wordOfLine_of_instrOfLine_error (by rw [instrOfLine_j_map, h]; rfl)

/-! ### A literal jump address -/

theorem targetField_toNat_of_nonneg {k : Int} (h : 0 ≤ k) : targetField k.toNat = BitVec.ofInt 26 k := by
  rw [targetField, ← BitVec.ofInt_natCast, Int.toNat_of_nonneg h]

/-- A literal that is the byte address of a word below 2^28 always fits (R117). -/
theorem wordOfLine_j_literal (h : literalOfText operand = some v) :
    wordOfLine policy table ⟨n, address, .instruction "j".toList [operand]⟩ =
      if 0 ≤ v ∧ v < 2 ^ 28 ∧ v % 4 = 0 then .ok (some (encJ opcJ (BitVec.ofInt 26 (v / 4))))
      else .error .badJumpAddress := by
  have hindex := jumpIndexOf_of_literal (table := table) h
  by_cases hv : 0 ≤ v ∧ v < 2 ^ 28 ∧ v % 4 = 0
  · rw [if_pos hv] at hindex
    have hfits : (v / 4).toNat < 2 ^ 26 := by omega
    rw [if_pos hv, wordOfLine_j hindex, if_pos hfits, targetField_toNat_of_nonneg (by omega)]
  · rw [if_neg hv] at hindex
    rw [if_neg hv, wordOfLine_j_error hindex]

/-! ### A label's displacement -/

/-- The displacement between two word addresses is exact. -/
theorem four_mul_branchOffset {target : Nat} (ha : address % 4 = 0) (ht : target % 4 = 0) :
    4 * branchOffset address target = (target : Int) - ((address : Int) + 4) := by
  rw [branchOffset]
  omega

/-- Settles O55: by what the operand gives, a literal, a label in the table, or a name that is neither. -/
theorem literalLinesEncode : Obligations.LiteralLinesEncode := by
  refine ⟨fun policy table n address a b operand v h => ?_, fun policy table n address a b operand e h hl => ?_,
    fun policy table n address a b operand h => ?_, fun address target => four_mul_branchOffset⟩
  · exact ⟨wordOfLine_addi (immediateOf_of_literal h), wordOfLine_beq (offsetOf_of_literal h), wordOfLine_j_literal h⟩
  · exact ⟨wordOfLine_beq (offsetOf_of_label h hl), wordOfLine_j (jumpIndexOf_of_label h hl)⟩
  · exact ⟨wordOfLine_addi_error (immediateOf_of_not_literal h), fun hl =>
      ⟨wordOfLine_beq_error (offsetOf_of_undefined h hl), wordOfLine_j_error (jumpIndexOf_of_undefined h hl)⟩⟩

end Sys2Proof.Machine
end

section
/-! CLAIM. Placement and labels (spec/30_encoding.md R100 to R104): where pass 1 puts each line, how many words there are, and what
a label is bound to. -/

namespace Sys2Proof.Machine

variable {policy : UnknownRegPolicy} {table : List LabelEntry} {ps : List PlacedLine} {source : List Text} {ws : List Word}
  {p q : PlacedLine}

/-! ### Where pass 1 puts each line -/

/-- How many lines of a source take an instruction's place (R103). -/
def instructionCount (source : List Text) : Nat := (source.filter fun l => (classify l).isInstruction).length

theorem instructionCount_cons (t : Text) (rest : List Text) : instructionCount (t :: rest) =
    (if (classify t).isInstruction = true then 1 else 0) + instructionCount rest := by
  unfold instructionCount
  rw [List.filter_cons]
  split
  · rw [List.length_cons, Nat.add_comm]
  · rw [Nat.zero_add]

theorem instructionCount_take_le (k : Nat) (source : List Text) :
    instructionCount (source.take k) ≤ instructionCount source :=
  ((List.take_sublist k source).filter _).length_le

theorem length_placeLines (n a : Nat) (source : List Text) : (placeLines n a source).length = source.length := by
  induction source generalizing n a with
  | nil => rfl
  | cons t rest ih => rw [placeLines, List.length_cons, List.length_cons, ih]

/-- Line `k` is numbered `k` after the first, and stands four bytes after it for every instruction line between. -/
theorem getElem?_placeLines (n a : Nat) (source : List Text) (k : Nat) : (placeLines n a source)[k]? =
    source[k]?.map fun line => ⟨n + k, a + 4 * instructionCount (source.take k), classify line⟩ := by
  induction source generalizing n a k with
  | nil => rfl
  | cons t rest ih =>
    cases k with
    | zero => rfl
    | succ k =>
      have haddr : (if (classify t).isInstruction = true then a + 4 else a) + 4 * instructionCount (rest.take k) =
          a + 4 * instructionCount ((t :: rest).take (k + 1)) := by
        rw [List.take_succ_cons, instructionCount_cons]
        split <;> omega
      rw [placeLines, List.getElem?_cons_succ, List.getElem?_cons_succ, ih, haddr, Nat.add_right_comm]
      rfl

theorem exists_of_mem_placeLines (hp : p ∈ placeLines 1 0 source) :
    ∃ k line, source[k]? = some line ∧ p = ⟨k + 1, 4 * instructionCount (source.take k), classify line⟩ := by
  obtain ⟨k, hk⟩ := List.mem_iff_getElem?.mp hp
  rw [getElem?_placeLines] at hk
  obtain ⟨line, hline, rfl⟩ := Option.map_eq_some_iff.mp hk
  exact ⟨k, line, hline, by rw [Nat.zero_add, Nat.add_comm]⟩

theorem address_mod_four (hp : p ∈ placeLines 1 0 source) : p.address % 4 = 0 := by
  obtain ⟨k, line, -, rfl⟩ := exists_of_mem_placeLines hp
  exact Nat.mul_mod_right ..

theorem address_le (hp : p ∈ placeLines 1 0 source) : p.address ≤ 4 * instructionCount source := by
  obtain ⟨k, line, -, rfl⟩ := exists_of_mem_placeLines hp
  exact Nat.mul_le_mul_left 4 (instructionCount_take_le k source)

theorem eq_of_lineNumber_eq (hp : p ∈ placeLines 1 0 source) (hq : q ∈ placeLines 1 0 source)
    (h : p.lineNumber = q.lineNumber) : p = q := by
  obtain ⟨k, line, hk, rfl⟩ := exists_of_mem_placeLines hp
  obtain ⟨l, line', hl, rfl⟩ := exists_of_mem_placeLines hq
  obtain rfl : k = l := Nat.succ.inj h
  cases hk.symm.trans hl
  rfl

/-! ### One word for each instruction line -/

theorem length_wordsOf_placeLines {n a : Nat}
    (hok : ∀ p ∈ placeLines n a source, ∃ o, wordOfLine policy table p = .ok o) :
    (wordsOf policy table (placeLines n a source)).length = instructionCount source := by
  induction source generalizing n a with
  | nil => rfl
  | cons t rest ih =>
    rw [placeLines] at hok ⊢
    obtain ⟨⟨o, ho⟩, hrest⟩ := List.forall_mem_cons.mp hok
    rw [instructionCount_cons, ← ih hrest]
    rcases wordOfLine_ok_cases ho with ⟨hline, rfl⟩ | ⟨mnemonic, operands, i, w, hline, -, -, rfl⟩
    · have hline : (classify t).isInstruction = false := hline
      rw [wordsOf_cons_none ho, hline, if_neg Bool.false_ne_true, if_neg Bool.false_ne_true, Nat.zero_add]
    · have hline : classify t = .instruction mnemonic operands := hline
      rw [wordsOf_cons_some ho, hline, LineClass.isInstruction, if_pos rfl, if_pos rfl, List.length_cons, Nat.add_comm]

theorem length_of_assembleUnder (h : assembleUnder policy source = .ok ws) : ws.length = instructionCount source := by
  obtain ⟨hok, rfl⟩ := assembleUnder_ok_iff.mp h
  exact length_wordsOf_placeLines hok

/-- Settles O51: pass 1 counts the words that pass 2 gives. -/
theorem assembledWordsStandAtTheirAddresses : Obligations.AssembledWordsStandAtTheirAddresses := by
  intro policy source ws h
  refine ⟨length_of_assembleUnder h, fun p hp => ⟨address_mod_four hp, fun hline => ?_⟩⟩
  obtain ⟨hok, rfl⟩ := assembleUnder_ok_iff.mp h
  obtain ⟨o, ho⟩ := hok p hp
  obtain ⟨k, hk, hword⟩ := wordsOf_placeLines_getElem? hok hp
  rcases wordOfLine_ok_cases ho with ⟨hnot, -⟩ | ⟨_, _, _, w, -, -, -, rfl⟩
  · rw [hline] at hnot
    cases hnot
  · refine ⟨w, ho, ?_⟩
    rw [hk, Nat.zero_add, Nat.mul_div_cancel_left k (by decide)]
    exact hword w ho

/-! ### Labels -/

theorem labelEntryOf_eq_some_iff {e : LabelEntry} : labelEntryOf p = some e ↔
    ∃ before after, p.line = .label before after ∧ labelName before after = some e.name ∧
      e.lineNumber = p.lineNumber ∧ e.address = p.address := by
  unfold labelEntryOf
  cases hl : p.line with
  | label before after =>
    obtain ⟨name, lineNumber, address⟩ := e
    simp only [Option.map_eq_some_iff, LabelEntry.mk.injEq, LineClass.label.injEq]
    constructor
    · rintro ⟨_, hname, rfl, rfl, rfl⟩
      exact ⟨before, after, ⟨rfl, rfl⟩, hname, rfl, rfl⟩
    · rintro ⟨_, _, ⟨rfl, rfl⟩, hname, rfl, rfl⟩
      exact ⟨name, hname, rfl, rfl, rfl⟩
  | blank | comment | instruction => simp

theorem mem_labelTable_iff {e : LabelEntry} : e ∈ labelTable ps ↔
    ∃ p ∈ ps, ∃ before after, p.line = .label before after ∧ labelName before after = some e.name ∧
      e.lineNumber = p.lineNumber ∧ e.address = p.address := by
  rw [labelTable, List.mem_filterMap]
  exact exists_congr fun p => and_congr_right fun _ => labelEntryOf_eq_some_iff

/-- A name is found in a table that has it. -/
theorem findLabel_of_mem {e : LabelEntry} (he : e ∈ table) : ∃ e', findLabel table e.name = some e' :=
  Option.isSome_iff_exists.mp (List.find?_isSome.mpr ⟨e, he, beq_self_eq_true _⟩)

theorem mem_of_findLabel {name : Text} {e : LabelEntry} (h : findLabel table name = some e) : e ∈ table ∧ e.name = name :=
  ⟨List.mem_of_find?_eq_some h, beq_iff_eq.mp (List.find?_some (p := fun e : LabelEntry => e.name == name) h)⟩

/-- In a source that assembles, the name of a label line finds that very line: another entry of the name would stand on another
line, and the duplicate would be an error. -/
theorem findLabel_of_label_line {before after : Text} (h : assembleUnder policy source = .ok ws)
    (hp : p ∈ placeLines 1 0 source) (hl : p.line = .label before after) :
    ∃ name, labelName before after = some name ∧
      findLabel (labelTable (placeLines 1 0 source)) name = some ⟨name, p.lineNumber, p.address⟩ := by
  obtain ⟨hok, -⟩ := assembleUnder_ok_iff.mp h
  obtain ⟨o, ho⟩ := hok p hp
  obtain ⟨name, hname, hfirst⟩ := label_of_wordOfLine_ok ho hl
  have hmem : ⟨name, p.lineNumber, p.address⟩ ∈ labelTable (placeLines 1 0 source) :=
    mem_labelTable_iff.mpr ⟨p, hp, before, after, hl, hname, rfl, rfl⟩
  obtain ⟨⟨name', lineNumber, address⟩, hfind⟩ := findLabel_of_mem hmem
  obtain ⟨hmem', rfl⟩ := mem_of_findLabel hfind
  obtain ⟨q, hq, -, -, -, -, rfl, rfl⟩ := mem_labelTable_iff.mp hmem'
  obtain rfl : q = p := eq_of_lineNumber_eq hq hp (hfirst _ hfind)
  exact ⟨_, hname, hfind⟩

/-- Settles O59: pass 1 places each line by the instruction lines before it, and binds each label to its line's address. -/
theorem labelsBindTheNextInstruction : Obligations.LabelsBindTheNextInstruction := by
  refine fun source => ⟨length_placeLines 1 0 source, fun k line hline => ?_, fun e => mem_labelTable_iff, ?_⟩
  · rw [getElem?_placeLines, hline, Nat.zero_add, Nat.add_comm 1 k]
    rfl
  · intro policy ws h p hp before after hl
    obtain ⟨name, hname, hfind⟩ := findLabel_of_label_line h hp hl
    exact ⟨name, hname, hfind, by rw [length_of_assembleUnder h]; exact address_le hp⟩

end Sys2Proof.Machine
end

section
/-! CLAIM. Transfers arrive at their label (spec/30_encoding.md R103, R116, R117; spec/43_branch_jump.md R210, R212). -/

namespace Sys2Proof.Machine

variable {policy : UnknownRegPolicy} {source : List Text} {ws : List Word} {pc : Word} {address label : Nat} {s : State}

/-! ### The targets in numbers -/

theorem fitsSigned16_branchOffset (ha : address < 4096) (hl : label ≤ 4096) :
    fitsSigned16 (branchOffset address label) = true := by
  rw [fitsSigned16_iff, branchOffset]
  omega

/-- The offset that the assembler computes leads from the branch to the label. -/
theorem branchTarget_branchOffset (ha4 : address % 4 = 0) (hl4 : label % 4 = 0) (ha : address < 4096) (hl : label ≤ 4096)
    (hpc : pc.toNat = address) : (branchTarget pc (immField (branchOffset address label))).toNat = label := by
  have hoff := four_mul_branchOffset ha4 hl4
  have hext : ((signExtend32 (immField (branchOffset address label))).toNat : Int) =
      branchOffset address label % 2 ^ 32 := by
    rw [signExtend32_immField (fitsSigned16_branchOffset ha hl), BitVec.toNat_ofInt]
    omega
  rw [toNat_branchTarget, hpc]
  omega

/-- The index that the assembler computes leads to the label. -/
theorem jumpTarget_label (hl4 : label % 4 = 0) (hl : label ≤ 4096) (hpc : pc.toNat < 4096) :
    (jumpTarget pc (targetField (label / 4))).toNat = label := by
  have hfits : fitsUnsigned26 (label / 4) = true := decide_eq_true (by omega)
  rw [toNat_jumpTarget, toNat_targetField hfits]
  omega

/-! ### The instructions -/

theorem alu_sub_zero_iff (a b : Word) : (alu .sub a b).2 = true ↔ a = b := by
  simp [alu, zeroFlag, BitVec.sub_eq_iff_eq_add]

theorem exec_beq_branchOffset (a b : Reg) (ha4 : address % 4 = 0) (hl4 : label % 4 = 0) (ha : address < 4096)
    (hl : label ≤ 4096) (hpc : s.pc.toNat = address) :
    ∃ t, exec (.beq a b (branchOffset address label)) s = .next t ∧
      t.pc.toNat = if readReg s a = readReg s b then label else address + 4 := by
  refine ⟨_, rfl, ?_⟩
  rw [setPc_pc]
  by_cases h : readReg s a = readReg s b
  · rw [if_pos ((alu_sub_zero_iff _ _).mpr h), if_pos h, branchTarget_branchOffset ha4 hl4 ha hl hpc]
  · rw [if_neg (h ∘ (alu_sub_zero_iff _ _).mp), if_neg h, toNat_seqPc]
    omega

theorem exec_j_label (hl4 : label % 4 = 0) (hl : label ≤ 4096) (hpc : s.pc.toNat < 4096) :
    ∃ t, exec (.j (label / 4)) s = .next t ∧ t.pc.toNat = label :=
  ⟨_, rfl, jumpTarget_label hl4 hl hpc⟩

/-! ### From source to step -/

/-- In a loaded image a step at an instruction line runs the line's instruction, inside the memory. -/
theorem step_of_instruction_line {p : PlacedLine} {mnemonic : Text} {operands : List Text} {i : Instr}
    (h : assembleUnder policy source = .ok ws) (hp : p ∈ placeLines 1 0 source) (hl : p.line = .instruction mnemonic operands)
    (hi : instrOfLine policy (labelTable (placeLines 1 0 source)) p.address mnemonic operands = .ok i)
    (hm : loadImem ws = .ok s.imem) (hpc : s.pc.toNat = p.address) (hr : s.status = .running) :
    step s = exec i s ∧ p.address < 4096 := by
  obtain ⟨i', w, k, hi', henc, haddr, hword⟩ := exists_word_of_instruction_line h hp hl
  cases hi.symm.trans hi'
  obtain ⟨hk, -⟩ := List.getElem?_eq_some_iff.mp hword
  obtain ⟨hlen, -⟩ := loadImem_ok_iff.mp hm
  refine ⟨?_, by omega⟩
  exact (step_of_loadImem hm (hpc.trans haddr) hword hr (decodeWord_of_encode henc)).trans (exec_canonical i s)

/-- Settles O56: the offset and the index are those of the label's own line, and lead to its address. -/
theorem transfersArriveAtTheirLabel : Obligations.TransfersArriveAtTheirLabel := by
  refine ⟨fun r address label s ha4 hl4 ha hl hpc => ?_, fun label s => exec_j_label, ?_⟩
  · simpa only [if_true] using exec_beq_branchOffset r r ha4 hl4 ha hl hpc
  · intro policy source ws h p hp q hq before after operand hq_line hname hlit s hm hpc hr
    obtain ⟨name, hname', hfind⟩ := findLabel_of_label_line h hq hq_line
    cases hname.symm.trans hname'
    have hq4 := address_mod_four hq
    have hq_le : q.address ≤ 4096 := by
      have hcount := address_le hq
      obtain ⟨hlen, -⟩ := loadImem_ok_iff.mp hm
      rw [length_of_assembleUnder h] at hlen
      omega
    refine ⟨fun a b hl => ?_, fun hl => ?_⟩
    · obtain ⟨hstep, hp_lt⟩ := step_of_instruction_line (i := .beq a b (branchOffset p.address q.address)) h hp hl
        (by rw [instrOfLine_beq_names, offsetOf_of_label hlit hfind]; rfl) hm hpc hr
      rw [hstep]
      exact exec_beq_branchOffset a b (address_mod_four hp) hq4 hp_lt hq_le hpc
    · obtain ⟨hstep, hp_lt⟩ := step_of_instruction_line (i := .j (q.address / 4)) h hp hl
        (by rw [instrOfLine_j_map, jumpIndexOf_of_label hlit hfind]; rfl) hm hpc hr
      rw [hstep]
      exact exec_j_label hq4 hq_le (hpc ▸ hp_lt)

end Sys2Proof.Machine
end

section
/-! SUPPORT. The units of the datapath (spec/40_engine.md R130 to R150): the control rows, the ALU and the multiply unit in
numbers, the PC multiplexer, and what the commit does for each instruction. -/

namespace Sys2Proof.Machine

variable {w : Word} {i : Instr}

/-! ### The control table (R130, R131) -/

theorem controlRow_rtype : controlRow opcRtype =
    some ⟨some .rd, some .reg, some .alu, true, false, false, false, some .rtype, false⟩ := rfl
theorem controlRow_addi : controlRow opcAddi =
    some ⟨some .rt, some .imm, some .alu, true, false, false, false, some .add, false⟩ := rfl
theorem controlRow_beq : controlRow opcBeq =
    some ⟨none, some .reg, none, false, false, false, true, some .sub, false⟩ := rfl
theorem controlRow_j : controlRow opcJ = some ⟨none, none, none, false, false, false, false, none, true⟩ := rfl

theorem controlRow_eq_none_iff {op : BitVec 6} :
    controlRow op = none ↔ op ≠ opcRtype ∧ op ≠ opcAddi ∧ op ≠ opcBeq ∧ op ≠ opcJ := by
  unfold controlRow
  split_ifs <;> simp_all

theorem knownFunct_eq_false_iff {f : BitVec 6} :
    knownFunct f = false ↔ f ≠ functAdd ∧ f ≠ functMult ∧ f ≠ functMflo := by
  simp [knownFunct, and_assoc]

/-! ### The ALU and the multiply unit (R140, R143, R151) -/

/-- In every class the flag is computed from the class's own result (R140). -/
theorem alu_zero_iff (op : AluOp) (a b : Word) : (alu op a b).2 = true ↔ (alu op a b).1 = 0#32 := by
  cases op <;> exact beq_iff_eq

theorem alu_sub_zero_eq_beq (a b : Word) : (alu .sub a b).2 = (a == b) :=
  Bool.eq_iff_iff.mpr ((alu_sub_zero_iff a b).trans beq_iff_eq.symm)

/-- No product of two words leaves the signed 64-bit range. -/
theorem toInt_product (a b : Word) : (product a b).toInt = a.toInt * b.toInt := by
  have hlo : -2 ^ (32 * 2 - 2) ≤ a.toInt * b.toInt := BitVec.le_toInt_mul_toInt
  have hhi : a.toInt * b.toInt ≤ 2 ^ (32 * 2 - 2) := BitVec.toInt_mul_toInt_le
  rw [product, BitVec.toInt_ofInt]
  apply Int.bmod_eq_of_le <;> omega

theorem mulUnit_append (a b : Word) : (mulUnit a b).1 ++ (mulUnit a b).2 = product a b :=
  (BitVec.extractLsb'_append_extractLsb'_eq_extractLsb' rfl).trans BitVec.extractLsb'_eq_self

/-! ### The PC multiplexer (R150) -/

theorem coe_toNat_branchTarget (pc : Word) (imm : BitVec 16) :
    ((branchTarget pc imm).toNat : Int) = ((pc.toNat : Int) + 4 + 4 * imm.toInt) % 2 ^ 32 := by
  have hext : ((signExtend32 imm).toNat : Int) = imm.toInt % 2 ^ 32 := by
    rw [signExtend32, BitVec.signExtend, BitVec.toNat_ofInt]
    omega
  rw [toNat_branchTarget]
  omega

@[simp] theorem selectPc_of_jump (branch zero : Bool) (seq btgt jtgt : Word) :
    selectPc true branch zero seq btgt jtgt = jtgt := rfl
@[simp] theorem selectPc_of_no_branch (zero : Bool) (seq btgt jtgt : Word) :
    selectPc false false zero seq btgt jtgt = seq := rfl
@[simp] theorem selectPc_of_branch (zero : Bool) (seq btgt jtgt : Word) :
    selectPc false true zero seq btgt jtgt = if zero then btgt else seq := rfl

/-! ### The commit, per instruction (R141 to R152) -/

/-- HI and LO come from an R-type word only, whatever the class (R132, R142; log 7). -/
theorem dispatch_hilo_of_not_rtype (ho : opcodeOf w ≠ opcRtype) (op : AluOp) (a b lo : Word) :
    (dispatch op w a b lo).hilo = none := by
  cases op with
  | rtype => simp [dispatch, dispatchRtype, ho]
  | add | sub | unused => rfl

section
variable {c : ControlRow} (hc : controlRow (opcodeOf w) = some c) (x : DontCare) (memData : Word) (s : State)
include hc

theorem commitCycle_add (ho : opcodeOf w = opcRtype) (hf : functOf w = functAdd) :
    commitCycle (c.fill x) memData w s = writeResult s (regOfBits (rdOf w))
      (alu .add (readReg s (regOfBits (rsOf w))) (readReg s (regOfBits (rtOf w)))).1 := by
  rw [ho, controlRow_rtype] at hc
  cases hc
  have hne : functAdd ≠ functMult := by decide
  simp [commitCycle, ControlRow.fill, writeEnable, dispatch, dispatchRtype, ho, hf, hne, writeResult, advance, seqPc]

theorem commitCycle_mult (ho : opcodeOf w = opcRtype) (hf : functOf w = functMult) :
    commitCycle (c.fill x) memData w s = advance (writeHiLo s
      (mulUnit (readReg s (regOfBits (rsOf w))) (readReg s (regOfBits (rtOf w)))).1
      (mulUnit (readReg s (regOfBits (rsOf w))) (readReg s (regOfBits (rtOf w)))).2) := by
  rw [ho, controlRow_rtype] at hc
  cases hc
  have hne : functMult ≠ functAdd := by decide
  simp [commitCycle, ControlRow.fill, writeEnable, dispatch, dispatchRtype, ho, hf, hne, advance, seqPc]

theorem commitCycle_mflo (ho : opcodeOf w = opcRtype) (hf : functOf w = functMflo) :
    commitCycle (c.fill x) memData w s = writeResult s (regOfBits (rdOf w)) s.lo := by
  rw [ho, controlRow_rtype] at hc
  cases hc
  have hneAdd : functMflo ≠ functAdd := by decide
  have hneMult : functMflo ≠ functMult := by decide
  simp [commitCycle, ControlRow.fill, writeEnable, dispatch, dispatchRtype, ho, hf, hneAdd, hneMult, writeResult, advance,
    seqPc]

theorem commitCycle_addi (ho : opcodeOf w = opcAddi) :
    commitCycle (c.fill x) memData w s = writeResult s (regOfBits (rtOf w))
      (alu .add (readReg s (regOfBits (rsOf w))) (signExtend32 (immOf w))).1 := by
  rw [ho, controlRow_addi] at hc
  cases hc
  have hne : opcAddi ≠ opcRtype := by decide
  simp [commitCycle, ControlRow.fill, writeEnable, dispatch, ho, hne, writeResult, advance, seqPc]

theorem commitCycle_beq (ho : opcodeOf w = opcBeq) :
    commitCycle (c.fill x) memData w s = setPc s
      (if (alu .sub (readReg s (regOfBits (rsOf w))) (readReg s (regOfBits (rtOf w)))).2
        then branchTarget s.pc (immOf w) else seqPc s.pc) := by
  rw [ho, controlRow_beq] at hc
  cases hc
  simp [commitCycle, ControlRow.fill, writeEnable, dispatch]

/-- The one row whose ALU class is a don't-care: what the dispatch makes of it is not selected. -/
theorem commitCycle_j (ho : opcodeOf w = opcJ) :
    commitCycle (c.fill x) memData w s = setPc s (jumpTarget s.pc (targetOf w)) := by
  have hhilo := dispatch_hilo_of_not_rtype (w := w) (ho ▸ by decide)
  rw [ho, controlRow_j] at hc
  cases hc
  simp [commitCycle, ControlRow.fill, writeEnable, hhilo]

/-- A decoded word's instruction does what the commit does under its opcode's row, however the don't-cares are filled. -/
theorem exec_eq_commitCycle (hd : decodeWord w = .ok i) (h0 : w ≠ 0#32) :
    exec i s = .next (commitCycle (c.fill x) memData w s) := by
  rcases decodeWord_ok_cases hd with ⟨hz, -⟩ | ⟨-, ho, hf, rfl⟩ | ⟨-, ho, hf, rfl⟩ | ⟨-, ho, hf, rfl⟩ | ⟨-, ho, rfl⟩ |
    ⟨-, ho, rfl⟩ | ⟨-, ho, rfl⟩
  · exact absurd hz h0
  · rw [commitCycle_add hc x memData s ho hf]
    rfl
  · rw [commitCycle_mult hc x memData s ho hf]
    rfl
  · rw [commitCycle_mflo hc x memData s ho hf]
    rfl
  · rw [commitCycle_addi hc x memData s ho, exec, execAddi, immField_toInt]
  · rw [commitCycle_beq hc x memData s ho, exec, execBeq, immField_toInt]
  · rw [commitCycle_j hc x memData s ho, exec, execJ, targetField_toNat]

end

end Sys2Proof.Machine
end

section
/-! CLAIM. The engine: the step is the cycle of the datapath, its units compute what the spec says, and the pc goes where the
multiplexer selects (spec/40_engine.md R130 to R152). -/

namespace Sys2Proof.Machine

variable {w : Word} {i : Instr} {policy : FetchPolicy} {s : State}

/-! ### The step and the datapath (R152) -/

theorem stepUnder_of_ifetch_error {cause : Fault} (hr : s.status = .running) (hf : ifetch policy s.imem s.pc = .error cause) :
    stepUnder policy s = .next (raiseFault cause none s) :=
  stepUnder_of_error hr (by simp [fetchDecode, hf])

theorem stepUnder_of_decode_error {e : DecodeError} (hr : s.status = .running) (hf : ifetch policy s.imem s.pc = .ok w)
    (hd : decodeWord w = .error e) : stepUnder policy s = .next (raiseFault (faultOfDecode e) (some w) s) :=
  stepUnder_of_error hr (by simp [fetchDecode, hf, hd])

theorem stepUnder_of_decode_ok (hr : s.status = .running) (hf : ifetch policy s.imem s.pc = .ok w)
    (hd : decodeWord w = .ok i) : stepUnder policy s = exec i s :=
  stepUnder_of_ok hr (fetchDecode_ok_iff.mpr ⟨w, hf, hd⟩)

/-- A nonzero word with a row and, if R-type, a known funct decodes: the datapath's checks are the decoder's (R92, R142). -/
theorem exists_decodeWord_of_controlRow {c : ControlRow} (hc : controlRow (opcodeOf w) = some c)
    (hk : ¬ (opcodeOf w = opcRtype ∧ knownFunct (functOf w) = false)) : ∃ i, decodeWord w = .ok i := by
  cases hd : decodeWord w with
  | ok i => exact ⟨i, rfl⟩
  | error e =>
    rcases decodeWord_error_cases hd with ⟨-, hops⟩ | ⟨-, -, ho, hfuncts⟩
    · rw [controlRow_eq_none_iff.mpr hops] at hc
      cases hc
    · exact absurd ⟨ho, knownFunct_eq_false_iff.mpr hfuncts⟩ hk

/-- Settles O14, along the branches of the datapath's cycle: each fault is the one the decoder reports, and a commit is the
decoded instruction's meaning. -/
theorem stepIsTheDatapathCycle : Obligations.StepIsTheDatapathCycle := by
  intro x policy s
  unfold datapathCycle
  split
  · next hr =>
    split
    · next cause hf => exact stepUnder_of_ifetch_error hr hf
    · next w hf =>
      by_cases h0 : w = 0#32
      · subst h0
        exact stepUnder_of_decode_ok hr hf decodeWord_zero
      · rw [if_neg h0]
        split
        · next hc =>
          obtain ⟨hrt, ha, hb, hj⟩ := controlRow_eq_none_iff.mp hc
          exact stepUnder_of_decode_error hr hf (decodeWord_of_illegalOpcode hrt ha hb hj)
        · next c hc =>
          split
          · next hk =>
            obtain ⟨ho, hfunct⟩ := hk
            obtain ⟨ha, hm, hl⟩ := knownFunct_eq_false_iff.mp hfunct
            exact stepUnder_of_decode_error hr hf (decodeWord_of_illegalFunct h0 ho ha hm hl)
          · next hk =>
            obtain ⟨i, hd⟩ := exists_decodeWord_of_controlRow hc hk
            exact (stepUnder_of_decode_ok hr hf hd).trans (exec_eq_commitCycle hc x x.memData s hd h0)
  · next hr => exact stepUnder_of_ended hr

/-- Settles O15: both fillings give the step's next state, in which no don't-care occurs. -/
theorem dontCaresAreUnobservable : Obligations.DontCaresAreUnobservable := fun x y policy s =>
  Host.Outcome.next.inj ((stepIsTheDatapathCycle x policy s).symm.trans (stepIsTheDatapathCycle y policy s))

theorem decodeWord_of_decodeBytes {b0 b1 b2 b3 : Byte} {bytes rest : List Byte}
    (h : decodeBytes (b0 :: b1 :: b2 :: b3 :: bytes) = .ok (i, rest)) : decodeWord (wordOfBytes b0 b1 b2 b3) = .ok i := by
  rw [decodeBytes] at h
  split at h
  · next hd =>
    cases h
    exact hd
  · cases h

/-- Settles O13: the four bytes are the word that the fetch at such a pc answers. -/
theorem stepRunsTheDecodedInstruction : Obligations.StepRunsTheDecodedInstruction := by
  intro s i rest hr ha hlt hd
  have hfetchable : fetchable s.pc = true := by simp [fetchable, (aligned_iff s.pc).mpr ha, imemBytes, hlt]
  exact step_of_fetch_decode hr (ifetch_of_fetchable hfetchable) (decodeWord_of_decodeBytes hd)

/-! ### The units (R131, R140, R143, R151) -/

/-- Settles O36: the wrap is that of the words' own arithmetic, and the flag is computed from the result. -/
theorem aluComputesItsClasses : Obligations.AluComputesItsClasses := fun a b =>
  ⟨BitVec.toNat_add a b, BitVec.toNat_sub a b, rfl, rfl, fun op => alu_zero_iff op a b⟩

/-- Settles O37: a difference is 0 exactly when the operands are equal. -/
theorem zeroFlagMeansEqual : Obligations.ZeroFlagMeansEqual := alu_sub_zero_iff

/-- Settles O38: the halves joined are the 64-bit pattern, and a product of two words fits it. -/
theorem productIsExact : Obligations.ProductIsExact := fun a b =>
  ⟨by rw [mulUnit_append, toInt_product], rfl, rfl, BitVec.le_toInt_mul_toInt, BitVec.toInt_mul_toInt_le⟩

/-- Settles O40: the four rows are evaluated, and an opcode without a row is none of the four. -/
theorem controlTableBits : Obligations.ControlTableBits :=
  ⟨rfl, rfl, rfl, rfl, fun op => controlRow_eq_none_iff.trans (by simp)⟩

/-! ### The next pc (R150, R151) -/

/-- The multiplexer over the opcode tests and the register equality gives the pc of every instruction but the sentinel. -/
theorem exec_pc_eq_selectPc (hd : decodeWord w = .ok i) (h0 : w ≠ 0#32) (s : State) : ∃ t, exec i s = .next t ∧
    t.pc = selectPc (opcodeOf w == opcJ) (opcodeOf w == opcBeq)
      (readReg s (regOfBits (rsOf w)) == readReg s (regOfBits (rtOf w)))
      (seqPc s.pc) (branchTarget s.pc (immOf w)) (jumpTarget s.pc (targetOf w)) := by
  rcases decodeWord_ok_cases hd with ⟨hz, -⟩ | ⟨-, ho, -, rfl⟩ | ⟨-, ho, -, rfl⟩ | ⟨-, ho, -, rfl⟩ | ⟨-, ho, rfl⟩ |
    ⟨-, ho, rfl⟩ | ⟨-, ho, rfl⟩
  · exact absurd hz h0
  · exact ⟨_, rfl, by rw [ho, writeResult_pc]; rfl⟩
  · exact ⟨_, rfl, by rw [ho]; rfl⟩
  · exact ⟨_, rfl, by rw [ho, writeResult_pc]; rfl⟩
  · exact ⟨_, rfl, by rw [ho, writeResult_pc]; rfl⟩
  · exact ⟨_, rfl, by rw [ho, setPc_pc, immField_toInt, alu_sub_zero_eq_beq]; rfl⟩
  · exact ⟨_, rfl, by rw [ho, setPc_pc, targetField_toNat]; rfl⟩

/-- Settles O39: the candidates in numbers, the multiplexer's cases, and the pc of each instruction. -/
theorem pcUpdateSelectsByPriority : Obligations.PcUpdateSelectsByPriority := by
  refine ⟨fun pc imm target => ⟨toNat_seqPc pc, coe_toNat_branchTarget pc imm, ?_⟩, ?_, ?_⟩
  · rw [toNat_jumpTarget, Nat.mul_comm 4]
  · intro branch zero seq btgt jtgt
    cases branch <;> exact ⟨rfl, rfl, rfl, rfl⟩
  · intro s w i hr hf hd h0
    rw [step_of_fetch_decode hr hf hd]
    exact exec_pc_eq_selectPc hd h0 s

end Sys2Proof.Machine
end

section
/-! SUPPORT. The whole effect of an instruction that writes one result and goes on: the destination, the frame and the pc
(spec/10_state.md R21, R22; spec/40_engine.md R150, R152). -/

namespace Sys2Proof.Machine

variable (s : State) (rd : Reg) (v : Word)

/-- The destination reads the result, which register 0 discards. -/
theorem readReg_writeResult_same : readReg (writeResult s rd v) rd = if rd = 0 then 0#32 else v := by
  by_cases h : rd = 0 <;> simp [readReg_writeResult, h]

theorem regsSameBut_writeResult : regsSameBut rd s (writeResult s rd v) := fun r hne => by
  rw [readReg_writeResult, if_neg fun h => hne h.1]

theorem memoriesSame_writeResult : memoriesSame s (writeResult s rd v) := fun a =>
  ⟨congrArg (Memory.read · a) (writeResult_imem s rd v), congrArg (Memory.read · a) (writeResult_dmem s rd v)⟩

/-- Result, frame and pc together, in the order in which the statements about the instructions list them. -/
theorem writeResult_effect :
    readReg (writeResult s rd v) rd = (if rd = 0 then 0#32 else v) ∧ regsSameBut rd s (writeResult s rd v) ∧
    (writeResult s rd v).pc = s.pc + 4#32 ∧ hiLoSame s (writeResult s rd v) ∧ memoriesSame s (writeResult s rd v) ∧
    (writeResult s rd v).status = s.status :=
  ⟨readReg_writeResult_same s rd v, regsSameBut_writeResult s rd v, writeResult_pc s rd v, hiLoSame_writeResult s rd v,
    memoriesSame_writeResult s rd v, writeResult_status s rd v⟩

end Sys2Proof.Machine
end

section
/-! CLAIM. The add instructions: each completes on every state with its sum in the destination and nothing else changed but the
pc (spec/41_add_addi_move.md). -/

namespace Sys2Proof.Machine

/-! ### The value each meaning writes (R170 to R172) -/

theorem exec_add (rd rs rt : Reg) (shamt : BitVec 5) (s : State) :
    exec (.add rd rs rt shamt) s = .next (writeResult s rd (readReg s rs + readReg s rt)) := rfl

/-- Both meanings add register 0, which reads 0, to the source (R171). -/
theorem exec_move_eq_add (rd rs : Reg) (shamt : BitVec 5) (s : State) :
    exec (.move rd rs shamt) s = exec (.add rd rs 0 shamt) s := rfl

theorem exec_move (rd rs : Reg) (shamt : BitVec 5) (s : State) :
    exec (.move rd rs shamt) s = .next (writeResult s rd (readReg s rs)) := by
  rw [exec_move_eq_add, exec_add, readReg_zero, BitVec.add_zero]

/-- An immediate that fits its field is added at its value: truncation and sign extension give it back (R86, R87). -/
theorem exec_addi (rt rs : Reg) {imm : Int} (h : fitsSigned16 imm = true) (s : State) :
    exec (.addi rt rs imm) s = .next (writeResult s rt (readReg s rs + BitVec.ofInt 32 imm)) := by
  rw [← signExtend32_immField h]
  rfl

/-! ### Result, completion and frame -/

/-- Settles O26: the effect of writing the sum. -/
theorem addWritesTheSum : Obligations.AddWritesTheSum := fun rd rs rt shamt s =>
  ⟨_, exec_add rd rs rt shamt s, writeResult_effect s rd _⟩

/-- Settles O27: the effect of writing the source's value. -/
theorem moveCopies : Obligations.MoveCopies := by
  intro rd rs shamt s
  obtain ⟨hresult, hregs, hpc, hhilo, hmem, hstatus⟩ := writeResult_effect s rd (readReg s rs)
  exact ⟨_, exec_move rd rs shamt s, hresult, hregs, hpc, hhilo, hmem, hstatus, exec_move_eq_add rd rs shamt s⟩

/-- Settles O28: the effect of writing the sum with an immediate in the signed 16-bit range. -/
theorem addiAddsTheImmediate : Obligations.AddiAddsTheImmediate := fun rt rs _ s hlo hhi =>
  ⟨_, exec_addi rt rs (fitsSigned16_iff.mpr ⟨hlo, hhi⟩) s, writeResult_effect s rt _⟩

end Sys2Proof.Machine
end

section
/-! CLAIM. The multiply instructions: each completes on every state, `mult` with the exact signed product in HI and LO and `mflo`
with LO in its destination, and nothing else changes but the pc (spec/42_multiply.md). -/

namespace Sys2Proof.Machine

/-! ### What each meaning writes (R190, R192) -/

theorem exec_mult (rs rt : Reg) (rdField shamt : BitVec 5) (s : State) :
    exec (.mult rs rt rdField shamt) s = .next (advance (writeHiLo s
      (mulUnit (readReg s rs) (readReg s rt)).1 (mulUnit (readReg s rs) (readReg s rt)).2)) := rfl

theorem exec_mflo (rd : Reg) (rsField rtField shamt : BitVec 5) (s : State) :
    exec (.mflo rd rsField rtField shamt) s = .next (writeResult s rd s.lo) := rfl

/-! ### Result, completion and frame -/

/-- Writing HI and LO and going on keeps every general register and both memories (R146). -/
theorem advance_writeHiLo_frame (s : State) (hi lo : Word) :
    regsSame s (advance (writeHiLo s hi lo)) ∧ (advance (writeHiLo s hi lo)).pc = s.pc + 4#32 ∧
    memoriesSame s (advance (writeHiLo s hi lo)) ∧ (advance (writeHiLo s hi lo)).status = s.status :=
  ⟨fun _ => rfl, rfl, fun _ => ⟨rfl, rfl⟩, rfl⟩

/-- Settles O29: the halves of the multiply unit joined are the 64-bit pattern of the product, which is exact (R143). -/
theorem multLeavesTheProduct : Obligations.MultLeavesTheProduct := by
  intro rs rt rdField shamt s
  refine ⟨_, exec_mult rs rt rdField shamt s, ?_, advance_writeHiLo_frame s _ _⟩
  rw [advance_hi, advance_lo, writeHiLo_hi, writeHiLo_lo, mulUnit_append, toInt_product]

/-- Settles O30: the effect of writing LO. -/
theorem mfloCopiesLo : Obligations.MfloCopiesLo := fun rd rsField rtField shamt s =>
  ⟨_, exec_mflo rd rsField rtField shamt s, writeResult_effect s rd s.lo⟩

end Sys2Proof.Machine
end

section
/-! CLAIM. The control transfers: `beq` and `j` complete on every state at their targets and change nothing but the pc, so that a
transfer to its own address keeps the state (spec/43_branch_jump.md). -/

namespace Sys2Proof.Machine

/-! ### The target and the next state of each meaning (R210, R212) -/

/-- An offset that fits its field is added in words: truncation, sign extension and the shift give four times it (R87, R150). -/
theorem branchTarget_immField {off : Int} (h : fitsSigned16 off = true) (pc : Word) :
    branchTarget pc (immField off) = pc + 4#32 + BitVec.ofInt 32 (4 * off) := by
  have hshift : BitVec.ofInt 32 off <<< 2 = BitVec.ofInt 32 (4 * off) := by
    rw [BitVec.shiftLeft_eq_mul_twoPow, BitVec.mul_comm, BitVec.ofInt_mul]
    rfl
  rw [branchTarget, seqPc, signExtend32_immField h, hshift]

/-- The zero flag of the subtraction is the comparison of the two words (R151, R211). -/
theorem exec_beq (rs rt : Reg) {off : Int} (h : fitsSigned16 off = true) (s : State) :
    exec (.beq rs rt off) s = .next (setPc s
      (if readReg s rs = readReg s rt then s.pc + 4#32 + BitVec.ofInt 32 (4 * off) else s.pc + 4#32)) := by
  rw [← branchTarget_immField h, exec, execBeq, seqPc, if_congr (alu_sub_zero_iff _ _) rfl rfl]

theorem exec_j (target : Nat) (s : State) :
    exec (.j target) s = .next (setPc s (jumpTarget s.pc (targetField target))) := rfl

theorem toNat_jumpTarget_targetField {target : Nat} (h : target < 2 ^ 26) (pc : Word) :
    (jumpTarget pc (targetField target)).toNat = pc.toNat / 2 ^ 28 * 2 ^ 28 + 4 * target := by
  rw [toNat_jumpTarget, toNat_targetField (decide_eq_true h), Nat.mul_comm 4]

/-! ### Target, completion and frame -/

theorem setPc_frame (s : State) (target : Word) :
    regsSame s (setPc s target) ∧ hiLoSame s (setPc s target) ∧ memoriesSame s (setPc s target) ∧
    (setPc s target).status = s.status :=
  ⟨fun r => readReg_setPc s r target, ⟨rfl, rfl⟩, fun _ => ⟨rfl, rfl⟩, setPc_status s target⟩

/-- Settles O31: the comparison selects one of two targets, and only the pc is written. -/
theorem beqBranchesWhenEqual : Obligations.BeqBranchesWhenEqual := fun rs rt _ s hlo hhi =>
  ⟨_, exec_beq rs rt (fitsSigned16_iff.mpr ⟨hlo, hhi⟩) s, setPc_pc s _, setPc_frame s _⟩

/-- Settles O32: a target that fits its field is joined to the top of the old pc, and only the pc is written. -/
theorem jumpGoesToItsTarget : Obligations.JumpGoesToItsTarget := fun target s h =>
  ⟨_, exec_j target s, toNat_jumpTarget_targetField h s.pc, setPc_frame s _⟩

/-! ### Transfers to their own address (R282) -/

theorem setPc_self (s : State) : setPc s s.pc = s := rfl

/-- A register always equals itself, and offset −1 takes back the 4 of the sequential pc. -/
theorem exec_beq_self_loop (r : Reg) (s : State) : exec (.beq r r (-1)) s = .next s := by
  have hback : BitVec.ofInt 32 (4 * -1) = -4#32 := by decide
  rw [exec_beq r r (by decide), if_pos rfl, hback, ← BitVec.sub_eq_add_neg, BitVec.add_sub_cancel, setPc_self]

/-- The top four bits and the word index of an aligned address join to the address itself. -/
theorem jumpTarget_own_address {pc : Word} (h : pc.toNat % 4 = 0) :
    jumpTarget pc (targetField (pc.toNat % 2 ^ 28 / 4)) = pc := by
  apply BitVec.eq_of_toNat_eq
  rw [toNat_jumpTarget_targetField (by omega)]
  omega

/-- Settles O35: each loop's target is its own pc. -/
theorem selfLoopsKeepTheState : Obligations.SelfLoopsKeepTheState :=
  ⟨exec_beq_self_loop, fun s h => by rw [exec_j, jumpTarget_own_address h, setPc_self]⟩

end Sys2Proof.Machine
end

section
/-! CLAIM. The sentinel and `nop`: both halt on every state and change nothing but the status, and the word of `nop` under any
other nop-code is an illegal funct (spec/44_nop_halt.md). -/

namespace Sys2Proof.Machine

open Sys2Proof.Laws

variable {nopCode : BitVec 6} {s : State}

/-! ### The sentinel and `nop` (R230, R231) -/

theorem exec_haltSentinel (s : State) : exec .haltSentinel s = .next (halt s) := rfl

theorem onlyStatusChanges_halt (s : State) : onlyStatusChanges s (halt s) :=
  ⟨fun _ => readReg_halt .., halt_pc s, ⟨halt_hi s, halt_lo s⟩, fun _ => ⟨rfl, rfl⟩⟩

/-- Settles O33: both meanings are the halt. -/
theorem sentinelAndNopHalt : Obligations.SentinelAndNopHalt := by
  rintro i s (rfl | rfl)
  · exact ⟨_, exec_haltSentinel s, halt_status s, onlyStatusChanges_halt s⟩
  · exact ⟨_, exec_nop s, halt_status s, onlyStatusChanges_halt s⟩

/-! ### The word of `nop` under each nop-code (R93, R231) -/

/-- The word of `nop` is the sentinel only under the nop-code 0: the funct field of the sentinel is 0. -/
theorem nopWord_eq_zero_iff : encR 0#5 0#5 0#5 0#5 nopCode = 0#32 ↔ nopCode = 0#6 := by
  constructor
  · intro h
    calc nopCode = functOf (encR 0#5 0#5 0#5 0#5 nopCode) := (functOf_encR ..).symm
      _ = functOf 0#32 := congrArg functOf h
      _ = 0#6 := by decide
  · rintro rfl
    exact encodeFields_nop

@[simp] theorem nopUnder_zero (s : State) : nopUnder 0#6 s = halt s := if_pos encodeFields_nop

theorem nopUnder_of_ne_zero (h : nopCode ≠ 0#6) (s : State) :
    nopUnder nopCode s = raiseFault .illegalFunct (some (encR 0#5 0#5 0#5 0#5 nopCode)) s :=
  if_neg (mt nopWord_eq_zero_iff.mp h)

/-- A nonzero nop-code that is no funct of the table makes the word an illegal funct (R92, R93). -/
theorem decodeWord_nopWord (h0 : nopCode ≠ 0#6) (ha : nopCode ≠ functAdd) (hm : nopCode ≠ functMult)
    (hl : nopCode ≠ functMflo) : decodeWord (encR 0#5 0#5 0#5 0#5 nopCode) = .error .illegalFunct :=
  decodeWord_of_illegalFunct (mt nopWord_eq_zero_iff.mp h0) (opcodeOf_encR ..) (by rwa [functOf_encR])
    (by rwa [functOf_encR]) (by rwa [functOf_encR])

/-- The engine does with the word of `nop` what the nop-code gives it. -/
theorem step_of_nopWord (ha : nopCode ≠ functAdd) (hm : nopCode ≠ functMult) (hl : nopCode ≠ functMflo)
    (hr : s.status = .running) (hf : ifetch fetchOorPolicy s.imem s.pc = .ok (encR 0#5 0#5 0#5 0#5 nopCode)) :
    step s = .next (nopUnder nopCode s) := by
  by_cases h0 : nopCode = 0#6
  · subst h0
    have hdec : decodeWord (encR 0#5 0#5 0#5 0#5 0#6) = .ok .haltSentinel := by
      rw [nopWord_eq_zero_iff.mpr rfl, decodeWord_zero]
    rw [nopUnder_zero, ← exec_haltSentinel]
    exact step_of_fetch_decode hr hf hdec
  · rw [nopUnder_of_ne_zero h0]
    exact step_of_fetch_decode_error hr hf (decodeWord_nopWord h0 ha hm hl)

/-- Settles O34: nop-code 0 gives the sentinel, any other nop-code an R-type word that is not dispatched. -/
theorem nopUnderEachNopCode : Obligations.NopUnderEachNopCode := by
  intro nopCode s
  refine ⟨?_, ?_, step_of_nopWord⟩
  · by_cases h0 : nopCode = 0#6
    · rw [if_pos h0, h0, nopUnder_zero, halt]
    · rw [if_neg h0, nopUnder_of_ne_zero h0, raiseFault]
  · by_cases h0 : nopCode = 0#6
    · rw [h0, nopUnder_zero, halt_pc]
    · rw [nopUnder_of_ne_zero h0, raiseFault_pc]

end Sys2Proof.Machine
end

section
/-! CLAIM. Faults: the first check that fails names the fault, and a fault leaves everything else as the cycle found it
(spec/60_exceptions.md R240, R245, R246). -/

namespace Sys2Proof.Machine

variable {w : Word} {i : Instr}

/-! ### The decode checks as memberships (R92) -/

theorem decodeWord_eq_illegalOpcode_iff_notMem :
    decodeWord w = .error .illegalOpcode ↔ opcodeOf w ∉ [opcRtype, opcAddi, opcBeq, opcJ] :=
  decodeWord_eq_illegalOpcode_iff.trans (by simp)

theorem decodeWord_eq_illegalFunct_iff_notMem (h0 : w ≠ 0#32) :
    decodeWord w = .error .illegalFunct ↔ opcodeOf w = opcRtype ∧ functOf w ∉ [functAdd, functMult, functMflo] :=
  decodeWord_eq_illegalFunct_iff.trans (by simp [h0])

theorem ne_zero_of_decodeWord_error {e : DecodeError} (hd : decodeWord w = .error e) : w ≠ 0#32 := by
  rintro rfl
  cases decodeWord_zero.symm.trans hd

/-! ### The order of the checks (R245) -/

/-- No check comes after decode: the instruction of a nonzero word completes and leaves the status alone. -/
theorem exec_status_of_decodeWord (hd : decodeWord w = .ok i) (h0 : w ≠ 0#32) (s : State) :
    ∃ t, exec i s = .next t ∧ t.status = s.status := by
  rcases exec_cases i s with ⟨rfl | rfl, -⟩ | ⟨rd, v, he⟩ | ⟨_, _, _, _, hi, lo, -, he⟩ | ⟨target, -, he⟩
  · exact absurd hd (decodeWord_ne_nop w)
  · exact absurd (encodeFields_of_decodeWord hd).symm h0
  · exact ⟨_, he, writeResult_status s rd v⟩
  · exact ⟨_, he, rfl⟩
  · exact ⟨_, he, setPc_status s target⟩

/-- Settles O16: the fetch answers one of the two fetch faults or the word, and the word is refused, the sentinel, or an
instruction that completes. -/
theorem faultsComeInOrder : Obligations.FaultsComeInOrder := by
  intro s hr
  rcases ifetch_cases fetchOorPolicy s.imem s.pc with ⟨ha, hf⟩ | ⟨ha, hcap, -, hf⟩ | ⟨-, -, hpolicy, -⟩ | ⟨ha, hcap, hf⟩
  · have h4 : s.pc.toNat % 4 ≠ 0 := fun h => Bool.eq_false_iff.mp ha ((aligned_iff s.pc).mpr h)
    exact ⟨_, stepUnder_of_ifetch_error hr hf, by rw [raiseFault_status, if_pos h4]⟩
  · have h4 : ¬ s.pc.toNat % 4 ≠ 0 := not_not.mpr ((aligned_iff s.pc).mp ha)
    rw [imemBytes] at hcap
    exact ⟨_, stepUnder_of_ifetch_error hr hf, by rw [raiseFault_status, if_neg h4, if_pos hcap]⟩
  · cases hpolicy
  · have h4 : ¬ s.pc.toNat % 4 ≠ 0 := not_not.mpr ((aligned_iff s.pc).mp ha)
    rw [imemBytes] at hcap
    rw [if_neg h4, if_neg (Nat.not_le.mpr hcap)]
    generalize s.imem.readWord s.pc.toNat = w at hf ⊢
    cases hd : decodeWord w with
    | error e =>
      have h0 : w ≠ 0#32 := ne_zero_of_decodeWord_error hd
      refine ⟨_, step_of_fetch_decode_error hr hf hd, ?_⟩
      rw [raiseFault_status, if_neg h0]
      rcases decodeWord_error_cases hd with ⟨rfl, -⟩ | ⟨rfl, -⟩
      · rw [if_pos (decodeWord_eq_illegalOpcode_iff_notMem.mp hd), faultOfDecode]
      · have hop := mt (decodeWord_eq_illegalOpcode_iff_notMem (w := w)).mpr (by simp [hd])
        rw [if_neg hop, if_pos ((decodeWord_eq_illegalFunct_iff_notMem h0).mp hd), faultOfDecode]
    | ok i =>
      by_cases h0 : w = 0#32
      · subst h0
        exact ⟨_, step_of_fetch_decode hr hf decodeWord_zero, halt_status s⟩
      · obtain ⟨t, ht, hstatus⟩ := exec_status_of_decodeWord hd h0 s
        have hop := mt (decodeWord_eq_illegalOpcode_iff_notMem (w := w)).mpr (by simp [hd])
        have hfunct := mt (decodeWord_eq_illegalFunct_iff_notMem h0).mpr (by simp [hd])
        refine ⟨t, (step_of_fetch_decode hr hf hd).trans ht, ?_⟩
        rw [hstatus, hr, if_neg h0, if_neg hop, if_neg hfunct]

/-! ### What a fault leaves (R246) -/

theorem onlyStatusChanges_raiseFault (cause : Fault) (word : Option Word) (s : State) :
    onlyStatusChanges s (raiseFault cause word s) :=
  ⟨fun r => readReg_raiseFault s r cause word, raiseFault_pc s cause word,
    ⟨raiseFault_hi s cause word, raiseFault_lo s cause word⟩, fun _ => ⟨rfl, rfl⟩⟩

/-- Settles O17: the fault is the one that fetch or decode reported, and raising it is all the step does. -/
theorem faultsArePrecise : Obligations.FaultsArePrecise := by
  intro s t cause pc word hr h ht
  have hf : fetchDecode fetchOorPolicy s = .error (cause, word) := (cycleResult_of_step h).fetchDecode_of_faulted hr ht
  cases (stepUnder_of_error hr hf).symm.trans h
  cases ht
  exact ⟨rfl, rfl, onlyStatusChanges_raiseFault cause word s⟩

end Sys2Proof.Machine
end

section
/-! SUPPORT. The persisted image format (spec/70_reset_and_hazards.md R272): which lines are bytes, which images are bytes or words,
and that what is written reads back. -/

namespace Sys2Proof.Machine

/-! ### The bits of a byte -/

/-- The character a bit is written as. -/
def charOfBit (bit : Bool) : Char := if bit then '1' else '0'

/-- The bits of a byte, bit 7 first. -/
def bitsOfByte (b : Byte) : List Bool := (List.range 8).map fun k => b.getLsbD (7 - k)

@[simp] theorem length_bitsOfByte (b : Byte) : (bitsOfByte b).length = 8 := rfl

theorem bitsOfByte_injective : Function.Injective bitsOfByte := by
  intro a b h
  refine BitVec.eq_of_getLsbD_eq fun i hi => ?_
  have hbit : a.getLsbD (7 - (7 - i)) = b.getLsbD (7 - (7 - i)) :=
    List.map_inj_left.mp h (7 - i) (List.mem_range.mpr (by omega))
  rwa [Nat.sub_sub_self (by omega)] at hbit

theorem natOfBits_append_singleton (bs : List Bool) (bit : Bool) :
    natOfBits (bs ++ [bit]) = 2 * natOfBits bs + bit.toNat := by
  simp [natOfBits]

/-- The last bit of the list is bit 0 of its number. -/
theorem testBit_natOfBits (bs : List Bool) (k : Nat) : (natOfBits bs).testBit k = bs.reverse.getD k false := by
  induction bs using List.reverseRecOn generalizing k with
  | nil => simp [natOfBits]
  | append_singleton bs bit ih =>
    rw [natOfBits_append_singleton, List.reverse_append]
    cases k with
    | zero => cases bit <;> simp
    | succ k =>
      have hdiv : (2 * natOfBits bs + bit.toNat) / 2 = natOfBits bs := by
        have := Bool.toNat_lt bit
        omega
      rw [Nat.testBit_succ, hdiv, ih]
      rfl

/-- Eight bits are the bits of the byte they are read as. -/
theorem bitsOfByte_ofNat_natOfBits {bs : List Bool} (h : bs.length = 8) :
    bitsOfByte (BitVec.ofNat 8 (natOfBits bs)) = bs := by
  refine List.ext_getElem h.symm fun k hk hk' => ?_
  have hk8 : 7 - k < 8 := by omega
  have hlast : 8 - 1 - (7 - k) = k := by rw [length_bitsOfByte] at hk; omega
  simp [bitsOfByte, BitVec.getLsbD_ofNat, testBit_natOfBits, hk8, h, hlast]

/-! ### Lines -/

theorem bitOfChar_eq_some_iff {c : Char} {bit : Bool} : bitOfChar c = some bit ↔ c = charOfBit bit := by
  unfold bitOfChar
  split_ifs with h0 h1
  · subst h0; cases bit <;> decide
  · subst h1; cases bit <;> decide
  · cases bit <;> simp [charOfBit, h0, h1]

theorem bitsOfLine_eq_some_iff {line : Text} {bs : List Bool} : bitsOfLine line = some bs ↔ line = bs.map charOfBit := by
  induction line generalizing bs with
  | nil => cases bs <;> simp [bitsOfLine]
  | cons c rest ih =>
    cases bs with
    | nil => simp only [bitsOfLine]; split <;> simp
    | cons bit bs =>
      rw [List.map_cons, List.cons.injEq, ← bitOfChar_eq_some_iff, ← ih]
      simp only [bitsOfLine]
      cases bitOfChar c <;> cases bitsOfLine rest <;> simp

theorem lineOfByte_eq (b : Byte) : lineOfByte b = (bitsOfByte b).map charOfBit := rfl

@[simp] theorem length_lineOfByte (b : Byte) : (lineOfByte b).length = 8 := rfl

/-- A line is a byte exactly when it is that byte's written line. -/
theorem byteOfLine_eq_some_iff {line : Text} {b : Byte} : byteOfLine line = some b ↔ line = lineOfByte b := by
  constructor
  · intro h
    unfold byteOfLine at h
    split at h
    · next hlen =>
      obtain ⟨bs, hbs, rfl⟩ := Option.map_eq_some_iff.mp h
      rw [bitsOfLine_eq_some_iff] at hbs
      have hbits : bs.length = 8 := by rw [← hlen, hbs, List.length_map]
      rw [hbs, lineOfByte_eq, bitsOfByte_ofNat_natOfBits hbits]
    · cases h
  · rintro rfl
    have hbits : bitsOfLine (lineOfByte b) = some (bitsOfByte b) := bitsOfLine_eq_some_iff.mpr (lineOfByte_eq b)
    rw [byteOfLine, if_pos (length_lineOfByte b), hbits]
    exact congrArg some (bitsOfByte_injective (bitsOfByte_ofNat_natOfBits (length_bitsOfByte b)))

/-- Exactly eight characters `0` or `1` (R272). -/
def IsByteLine (line : Text) : Prop := line.length = 8 ∧ ∀ c ∈ line, c = '0' ∨ c = '1'

theorem isByteLine_of_byteOfLine {line : Text} {b : Byte} (h : byteOfLine line = some b) : IsByteLine line := by
  rw [byteOfLine_eq_some_iff] at h
  subst h
  refine ⟨length_lineOfByte b, fun c hc => ?_⟩
  obtain ⟨bit, -, rfl⟩ := List.mem_map.mp hc
  cases bit
  · exact .inl rfl
  · exact .inr rfl

theorem eq_lineOfByte_iff {line : Text} {b : Byte} : line = lineOfByte b ↔
    line.length = 8 ∧ ∀ k : Nat, k < 8 → line.getD k ' ' = if b.getLsbD (7 - k) then '1' else '0' := by
  have hchar {k : Nat} (hk : k < (lineOfByte b).length) :
      (lineOfByte b)[k] = if b.getLsbD (7 - k) then '1' else '0' := by
    simp [lineOfByte_eq, bitsOfByte, charOfBit]
  constructor
  · rintro rfl
    exact ⟨length_lineOfByte b, fun k hk => (List.getD_eq_getElem _ _ hk).trans (hchar hk)⟩
  · rintro ⟨hlen, h⟩
    refine List.ext_getElem hlen fun k hk hk' => ?_
    rw [hchar hk', ← h k hk', List.getD_eq_getElem _ _ hk]

/-! ### Images of bytes -/

section
variable {lines : List Text} {bs : List Byte}

/-- An image is bytes exactly when each line is one. -/
theorem bytesOfLines_eq_ok_iff : bytesOfLines lines = .ok bs ↔ lines.map byteOfLine = bs.map some := by
  induction lines generalizing bs with
  | nil => cases bs <;> simp [bytesOfLines]
  | cons line rest ih =>
    cases bs with
    | nil => simp only [bytesOfLines]; split <;> simp
    | cons b bs =>
      rw [List.map_cons, List.map_cons, List.cons.injEq, ← ih]
      simp only [bytesOfLines]
      cases byteOfLine line <;> cases bytesOfLines rest <;> simp

theorem length_of_bytesOfLines (h : bytesOfLines lines = .ok bs) : bs.length = lines.length := by
  simpa using (congrArg List.length (bytesOfLines_eq_ok_iff.mp h)).symm

/-- The one way an image is no bytes. -/
theorem bytesOfLines_eq_malformedLine_iff :
    bytesOfLines lines = .error .malformedLine ↔ ∀ bs, bytesOfLines lines ≠ .ok bs := by
  cases lines with
  | nil => simp [bytesOfLines]
  | cons line rest => simp only [bytesOfLines]; split <;> simp

theorem isByteLine_of_bytesOfLines (h : bytesOfLines lines = .ok bs) {line : Text} (hl : line ∈ lines) :
    IsByteLine line := by
  have hmem : byteOfLine line ∈ bs.map some := bytesOfLines_eq_ok_iff.mp h ▸ List.mem_map_of_mem hl
  obtain ⟨b, -, hb⟩ := List.mem_map.mp hmem
  exact isByteLine_of_byteOfLine hb.symm

theorem bytesOfLines_of_malformed (h : ∃ line ∈ lines, ¬ IsByteLine line) : bytesOfLines lines = .error .malformedLine := by
  obtain ⟨line, hl, hbad⟩ := h
  exact bytesOfLines_eq_malformedLine_iff.mpr fun bs hbs => hbad (isByteLine_of_bytesOfLines hbs hl)

@[simp] theorem bytesOfLines_map_lineOfByte (bs : List Byte) : bytesOfLines (bs.map lineOfByte) = .ok bs := by
  rw [bytesOfLines_eq_ok_iff, List.map_map]
  exact List.map_congr_left fun b _ => byteOfLine_eq_some_iff.mpr rfl

end

/-! ### Images of words -/

section
variable {lines : List Text} {bs : List Byte} {ws : List Word}

theorem bytesOfWord_wordOfBytes (b0 b1 b2 b3 : Byte) : bytesOfWord (wordOfBytes b0 b1 b2 b3) = [b0, b1, b2, b3] := by
  obtain ⟨h0, h1, h2, h3⟩ := byteOfWord_wordOfBytes b0 b1 b2 b3
  rw [bytesOfWord, h0, h1, h2, h3]

@[simp] theorem length_bytesOfWords (ws : List Word) : (bytesOfWords ws).length = 4 * ws.length := by
  induction ws with
  | nil => rfl
  | cons w ws ih => rw [bytesOfWords_cons, List.length_append, length_bytesOfWord, ih, List.length_cons]; omega

@[simp] theorem wordsOfBytes_bytesOfWords (ws : List Word) : wordsOfBytes (bytesOfWords ws) = .ok ws := by
  induction ws with
  | nil => rfl
  | cons w ws ih => simp [bytesOfWord, wordsOfBytes, ih]

/-- Bytes that are words are those words' bytes. -/
theorem bytesOfWords_of_wordsOfBytes (h : wordsOfBytes bs = .ok ws) : bytesOfWords ws = bs := by
  fun_induction wordsOfBytes bs generalizing ws with
  | case1 => cases h; rfl
  | case2 b0 b1 b2 b3 rest ws' hrest ih =>
    cases h
    rw [bytesOfWords_cons, bytesOfWord_wordOfBytes, ih hrest]
    rfl
  | case3 => cases h
  | case4 => cases h

theorem wordsOfBytes_eq_ok_iff : wordsOfBytes bs = .ok ws ↔ bytesOfWords ws = bs :=
  ⟨bytesOfWords_of_wordsOfBytes, fun h => h ▸ wordsOfBytes_bytesOfWords ws⟩

/-- A whole number of words is words. -/
theorem exists_wordsOfBytes (h : bs.length % 4 = 0) : ∃ ws, wordsOfBytes bs = .ok ws := by
  fun_induction wordsOfBytes bs with
  | case1 => exact ⟨[], rfl⟩
  | case2 => exact ⟨_, rfl⟩
  | case3 b0 b1 b2 b3 rest e hrest ih =>
    obtain ⟨ws, hws⟩ := ih (by simp only [List.length_cons] at h; omega)
    cases hws.symm.trans hrest
  | case4 bs hne hfour =>
    match bs with
    | [] => exact absurd rfl hne
    | [_] | [_, _] | [_, _, _] => simp at h
    | b0 :: b1 :: b2 :: b3 :: rest => exact absurd rfl (hfour b0 b1 b2 b3 rest)

/-- An image is words exactly when its lines are those words' bytes. -/
theorem wordsOfLines_eq_ok_iff : wordsOfLines lines = .ok ws ↔ bytesOfLines lines = .ok (bytesOfWords ws) := by
  unfold wordsOfLines
  cases bytesOfLines lines with
  | error e => simp
  | ok bs => simpa [wordsOfBytes_eq_ok_iff] using eq_comm

theorem length_of_wordsOfLines (h : wordsOfLines lines = .ok ws) : 4 * ws.length = lines.length := by
  rw [← length_of_bytesOfLines (wordsOfLines_eq_ok_iff.mp h), length_bytesOfWords]

theorem wordsOfLines_of_malformed (h : ∃ line ∈ lines, ¬ IsByteLine line) : wordsOfLines lines = .error .malformedLine := by
  rw [wordsOfLines, bytesOfLines_of_malformed h]

end

end Sys2Proof.Machine
end

section
/-! CLAIM. The persisted image format (spec/70_reset_and_hazards.md R272; log 23). -/

namespace Sys2Proof.Machine

/-- Settles O46: a line is the written line of its byte, an image is words when its lines are their bytes, and a malformed line is
no byte. -/
theorem persistedImagesReadBack : Obligations.PersistedImagesReadBack := by
  refine ⟨?_, fun _ _ => bytesOfLines_eq_ok_iff, ?_, ?_, fun _ => wordsOfLines_of_malformed⟩
  · exact fun line b => byteOfLine_eq_some_iff.trans eq_lineOfByte_iff
  · intro l0 l1 l2 l3 b0 b1 b2 b3 rest ws h0 h1 h2 h3 hrest
    have hbytes : bytesOfWords (wordOfBytes b0 b1 b2 b3 :: ws) = b0 :: b1 :: b2 :: b3 :: bytesOfWords ws := by
      rw [bytesOfWords_cons, bytesOfWord_wordOfBytes]
      rfl
    rw [wordsOfLines_eq_ok_iff, bytesOfLines_eq_ok_iff] at hrest
    refine wordsOfLines_eq_ok_iff.mpr (bytesOfLines_eq_ok_iff.mpr ?_)
    rw [← wordOfBytes, hbytes]
    simp [h0, h1, h2, h3, hrest]
  · exact fun ws => wordsOfLines_eq_ok_iff.mpr (bytesOfLines_map_lineOfByte (bytesOfWords ws))

end Sys2Proof.Machine
end

section
/-! SUPPORT. Loaded memories (spec/70_reset_and_hazards.md R271, R283): which images load, what the memories hold, and that the
persisted image of a memory loads back (R272). -/

namespace Sys2Proof.Machine

/-! ### Images of words and of bytes -/

section
variable {ws : List Word} {bs : List Byte} {m : Memory}

theorem loadImem_of_length_le (h : ws.length ≤ 1024) : loadImem ws = .ok (Memory.ofBytesAt 0 (bytesOfWords ws)) :=
  loadImem_ok_iff.mpr ⟨h, rfl⟩

theorem loadImem_of_lt_length (h : 1024 < ws.length) : loadImem ws = .error .tooLarge :=
  if_neg (by rw [imemBytes]; omega)

theorem loadDmem_ok_iff : loadDmem bs = .ok m ↔ bs.length ≤ 4096 ∧ m = Memory.ofBytesAt 0 bs := by
  by_cases h : bs.length ≤ 4096 <;> simp [loadDmem, dmemBytes, h, eq_comm]

theorem loadDmem_of_length_le (h : bs.length ≤ 4096) : loadDmem bs = .ok (Memory.ofBytesAt 0 bs) :=
  loadDmem_ok_iff.mpr ⟨h, rfl⟩

theorem loadDmem_of_lt_length (h : 4096 < bs.length) : loadDmem bs = .error .tooLarge := if_neg (Nat.not_le.mpr h)

/-- An image from address 0 reads as its bytes, then as 0. -/
@[simp] theorem read_ofBytesAt_zero (bs : List Byte) (a : Nat) : (Memory.ofBytesAt 0 bs).read a = bs.getD a 0#8 := by
  rw [Memory.read_ofBytesAt, if_pos (Nat.zero_le a), Nat.sub_zero]

/-- Every word of an instruction image is fetched, and 0 is fetched after the last. -/
theorem ifetch_ofNat_of_loadImem (h : loadImem ws = .ok m) (policy : FetchPolicy) {k : Nat} (hk : k < 1024) :
    ifetch policy m (BitVec.ofNat 32 (4 * k)) = .ok (ws.getD k 0#32) :=
  ifetch_of_loadImem h (by rw [BitVec.toNat_ofNat, Nat.mod_eq_of_lt (by omega)]) hk

theorem read_of_loadImem_after (h : loadImem ws = .ok m) {a : Nat} (ha : 4 * ws.length ≤ a) : m.read a = 0#8 := by
  obtain ⟨-, rfl⟩ := loadImem_ok_iff.mp h
  rw [read_ofBytesAt_zero, List.getD_eq_default _ _ (by rwa [length_bytesOfWords])]

/-- The data port reads the words of a memory at the multiples of 4. -/
theorem dataRead_ofNat (m : Memory) {k : Nat} (hk : k < 1024) :
    dataRead m (BitVec.ofNat 32 (4 * k)) = .ok (m.readWord (4 * k)) := by
  have ha : (BitVec.ofNat 32 (4 * k)).toNat = 4 * k := by rw [BitVec.toNat_ofNat, Nat.mod_eq_of_lt (by omega)]
  rcases dataCheck_cases (BitVec.ofNat 32 (4 * k)) with ⟨h4, -⟩ | ⟨-, hr, -⟩ | ⟨-, -, hc⟩
  · omega
  · omega
  · rw [dataRead_of_check_ok hc, ha]

end

/-! ### Legal memories -/

/-- The invariant's parts on a memory of `cap` bytes: the canonical form, and no cell outside (R50). -/
structure Memory.Legal (cap : Nat) (m : Memory) : Prop where
  wf : m.wf = true
  below : m.below cap = true

section
variable {cap : Nat} {ws : List Word} {bs : List Byte} {m : Memory}

theorem Memory.legal_ofBytesAt_zero (h : bs.length ≤ cap) : (Memory.ofBytesAt 0 bs).Legal cap :=
  ⟨Memory.wf_ofBytesAt 0 bs, Memory.below_ofBytesAt (by omega)⟩

theorem legal_of_loadImem (h : loadImem ws = .ok m) : m.Legal imemBytes := by
  obtain ⟨hlen, rfl⟩ := loadImem_ok_iff.mp h
  exact Memory.legal_ofBytesAt_zero (by rw [length_bytesOfWords, imemBytes]; omega)

theorem legal_of_loadDmem (h : loadDmem bs = .ok m) : m.Legal dmemBytes := by
  obtain ⟨hlen, rfl⟩ := loadDmem_ok_iff.mp h
  exact Memory.legal_ofBytesAt_zero hlen

/-- A legal memory is the image of its bytes. -/
theorem Memory.Legal.ofBytesAt_map_read (h : m.Legal cap) : Memory.ofBytesAt 0 ((List.range cap).map m.read) = m := by
  refine Memory.ext_read (Memory.wf_ofBytesAt 0 _) h.wf fun a => ?_
  rw [read_ofBytesAt_zero]
  by_cases ha : a < cap
  · rw [List.getD_eq_getElem _ _ (by simpa using ha), List.getElem_map, List.getElem_range]
  · rw [List.getD_eq_default _ _ (by simpa using ha), Memory.read_of_below h.below (Nat.not_lt.mp ha)]

end

/-! ### Persisted images -/

section
variable {lines : List Text} {m : Memory}

theorem loadImemImage_ok_iff :
    loadImemImage lines = .ok m ↔ ∃ ws, wordsOfLines lines = .ok ws ∧ loadImem ws = .ok m := by
  unfold loadImemImage
  cases wordsOfLines lines <;> simp

theorem loadDmemImage_ok_iff :
    loadDmemImage lines = .ok m ↔ ∃ bs, bytesOfLines lines = .ok bs ∧ loadDmem bs = .ok m := by
  unfold loadDmemImage
  cases bytesOfLines lines <;> simp

/-- An image that R272 or the capacity refuses: a malformed line, or more lines than a memory has bytes. -/
def IsRefusedImage (lines : List Text) : Prop := 4096 < lines.length ∨ ∃ line ∈ lines, ¬ IsByteLine line

theorem not_isRefusedImage {bs : List Byte} (h : bytesOfLines lines = .ok bs) (hlen : bs.length ≤ 4096) :
    ¬ IsRefusedImage lines := by
  rintro (hlong | hbad)
  · exact absurd hlong (Nat.not_lt.mpr (length_of_bytesOfLines h ▸ hlen))
  · cases h.symm.trans (bytesOfLines_of_malformed hbad)

theorem loadImemImage_of_refused (h : IsRefusedImage lines) : ∃ why, loadImemImage lines = .error why := by
  cases hload : loadImemImage lines with
  | error why => exact ⟨why, rfl⟩
  | ok m =>
    obtain ⟨ws, hws, hm⟩ := loadImemImage_ok_iff.mp hload
    obtain ⟨hlen, -⟩ := loadImem_ok_iff.mp hm
    exact absurd h (not_isRefusedImage (wordsOfLines_eq_ok_iff.mp hws) (by rw [length_bytesOfWords]; omega))

theorem loadDmemImage_of_refused (h : IsRefusedImage lines) : ∃ why, loadDmemImage lines = .error why := by
  cases hload : loadDmemImage lines with
  | error why => exact ⟨why, rfl⟩
  | ok m =>
    obtain ⟨bs, hbs, hm⟩ := loadDmemImage_ok_iff.mp hload
    exact absurd h (not_isRefusedImage hbs (loadDmem_ok_iff.mp hm).1)

@[simp] theorem length_linesOfMemory (size : Nat) (m : Memory) : (linesOfMemory size m).length = size := by
  simp [linesOfMemory]

theorem bytesOfLines_linesOfMemory (size : Nat) (m : Memory) :
    bytesOfLines (linesOfMemory size m) = .ok ((List.range size).map m.read) := by
  rw [← bytesOfLines_map_lineOfByte, List.map_map]
  rfl

/-- The written image of a legal data memory loads as that memory. -/
theorem loadDmemImage_linesOfMemory (h : m.Legal dmemBytes) : loadDmemImage (linesOfMemory dmemBytes m) = .ok m :=
  loadDmemImage_ok_iff.mpr ⟨_, bytesOfLines_linesOfMemory dmemBytes m, loadDmem_ok_iff.mpr
    ⟨by simp [dmemBytes], h.ofBytesAt_map_read.symm⟩⟩

/-- The written image of a legal instruction memory loads as that memory: its 4096 bytes are 1024 words. -/
theorem loadImemImage_linesOfMemory (h : m.Legal imemBytes) : loadImemImage (linesOfMemory imemBytes m) = .ok m := by
  have hlen : ((List.range imemBytes).map m.read).length = 4096 := by simp [imemBytes]
  obtain ⟨ws, hws⟩ := exists_wordsOfBytes (bs := (List.range imemBytes).map m.read) (by rw [hlen])
  have hbytes := wordsOfBytes_eq_ok_iff.mp hws
  have hcount : 4 * ws.length = 4096 := by rw [← length_bytesOfWords, hbytes, hlen]
  refine loadImemImage_ok_iff.mpr ⟨ws, wordsOfLines_eq_ok_iff.mpr ?_, loadImem_ok_iff.mpr ⟨by omega, ?_⟩⟩
  · rw [hbytes, bytesOfLines_linesOfMemory]
  · rw [hbytes, h.ofBytesAt_map_read]

end

end Sys2Proof.Machine
end

section
/-! SUPPORT. The host's calls (spec/70_reset_and_hazards.md R283), an equation for each case of a load; and the bounded run as steps. -/

namespace Sys2Proof.Machine

/-! ### Loads -/

section
variable {h : Session} {ws : List Word} {bs : List Byte} {lines : List Text} {m : Memory} {why : LoadError}

theorem hostCall_loadImem_of_started (hs : h.started = true) (ws : List Word) :
    hostCall h (.loadImem ws) = (h, .refused .afterFirstStep) := if_pos hs

theorem hostCall_loadDmem_of_started (hs : h.started = true) (bs : List Byte) :
    hostCall h (.loadDmem bs) = (h, .refused .afterFirstStep) := if_pos hs

theorem hostCall_loadImem_of_ok (hs : h.started = false) (hm : loadImem ws = .ok m) :
    hostCall h (.loadImem ws) = ({ h with machine := { h.machine with imem := m } }, .ok) := by
  simp [hostCall, hs, hm]

theorem hostCall_loadDmem_of_ok (hs : h.started = false) (hm : loadDmem bs = .ok m) :
    hostCall h (.loadDmem bs) = ({ h with machine := { h.machine with dmem := m } }, .ok) := by
  simp [hostCall, hs, hm]

theorem hostCall_loadImem_of_error (hs : h.started = false) (hm : loadImem ws = .error why) :
    hostCall h (.loadImem ws) = (h, .refused why) := by
  simp [hostCall, hs, hm]

theorem hostCall_loadDmem_of_error (hs : h.started = false) (hm : loadDmem bs = .error why) :
    hostCall h (.loadDmem bs) = (h, .refused why) := by
  simp [hostCall, hs, hm]

theorem hostLoadImemImage_of_ok (hw : wordsOfLines lines = .ok ws) :
    hostLoadImemImage h lines = hostCall h (.loadImem ws) := by
  simp [hostLoadImemImage, hw]

theorem hostLoadDmemImage_of_ok (hb : bytesOfLines lines = .ok bs) :
    hostLoadDmemImage h lines = hostCall h (.loadDmem bs) := by
  simp [hostLoadDmemImage, hb]

theorem hostLoadImemImage_of_error (hw : wordsOfLines lines = .error why) : hostLoadImemImage h lines = (h, .refused why) := by
  simp [hostLoadImemImage, hw]

theorem hostLoadDmemImage_of_error (hb : bytesOfLines lines = .error why) : hostLoadDmemImage h lines = (h, .refused why) := by
  simp [hostLoadDmemImage, hb]

end

/-! ### Data reads -/

/-- Reading the data memory changes nothing. -/
@[simp] theorem hostCall_readDmem_session (h : Session) (a : Word) : (hostCall h (.readDmem a)).1 = h := by
  cases hd : dataRead h.machine.dmem a <;> simp [hostCall, hd]

/-! ### The bounded run -/

/-- The bounded run is the steps it counts (R282). -/
theorem runUntilHalt_eq_stateAfter (bound : Nat) (s : State) :
    (runUntilHalt bound s).1 = stateAfter (runUntilHalt bound s).2 s := by
  induction bound generalizing s with
  | zero => rfl
  | succ bound ih =>
    by_cases hr : s.status = .running
    · rw [runUntilHalt_succ_of_running hr, stateAfter_succ, ih]
    · rw [runUntilHalt_of_ended hr, stateAfter_zero]

theorem runUntilHalt_cycles_le (bound : Nat) (s : State) : (runUntilHalt bound s).2 ≤ bound := by
  induction bound generalizing s with
  | zero => exact Nat.le_refl 0
  | succ bound ih =>
    by_cases hr : s.status = .running
    · rw [runUntilHalt_succ_of_running hr]
      exact Nat.succ_le_succ (ih _)
    · rw [runUntilHalt_of_ended hr]
      exact Nat.zero_le _

/-- It stops below the bound only where the run has ended. -/
theorem runUntilHalt_ended_of_lt {bound : Nat} {s : State} (h : (runUntilHalt bound s).2 < bound) :
    (runUntilHalt bound s).1.status ≠ .running := by
  induction bound generalizing s with
  | zero => exact absurd h (Nat.not_lt_zero _)
  | succ bound ih =>
    by_cases hr : s.status = .running
    · rw [runUntilHalt_succ_of_running hr] at h ⊢
      exact ih (Nat.lt_of_succ_lt_succ h)
    · rwa [runUntilHalt_of_ended hr]

/-- Each cycle it counts starts from a RUNNING state. -/
theorem running_of_lt_cycles {bound : Nat} {s : State} {k : Nat} (h : k < (runUntilHalt bound s).2) :
    (stateAfter k s).status = .running := by
  induction bound generalizing s k with
  | zero => exact absurd h (Nat.not_lt_zero k)
  | succ bound ih =>
    by_cases hr : s.status = .running
    · rw [runUntilHalt_succ_of_running hr] at h
      cases k with
      | zero => exact hr
      | succ k =>
        rw [stateAfter_succ]
        exact ih (Nat.lt_of_succ_lt_succ h)
    · rw [runUntilHalt_of_ended hr] at h
      exact absurd h (Nat.not_lt_zero k)

theorem runUntilHalt_memories (bound : Nat) (s : State) :
    (runUntilHalt bound s).1.imem = s.imem ∧ (runUntilHalt bound s).1.dmem = s.dmem := by
  rw [runUntilHalt_eq_stateAfter]
  exact stateAfter_memories _ s

end Sys2Proof.Machine
end

section
/-! CLAIM. The bounded run (spec/70_reset_and_hazards.md R282, R283). -/

namespace Sys2Proof.Machine

/-- Settles O47: by induction on the bound, one fact at a time. -/
theorem runStopsAtTheEndOrTheBound : Obligations.RunStopsAtTheEndOrTheBound := fun bound s =>
  ⟨runUntilHalt_eq_stateAfter bound s, runUntilHalt_cycles_le bound s, runUntilHalt_ended_of_lt,
    fun _ => running_of_lt_cycles⟩

end Sys2Proof.Machine
end

section
/-! CLAIM. What a load stores, and what the host's calls do (spec/70_reset_and_hazards.md R270, R271, R283; spec/20_memory.md R52, R57,
R60). -/

namespace Sys2Proof.Machine

/-- Settles O45: an image that fits reads back as its words, then 0, and no run changes a memory. -/
theorem loadedWordsAreFetched : Obligations.LoadedWordsAreFetched := by
  refine fun ws => ⟨fun hlen => ?_, loadImem_of_lt_length⟩
  have hm := loadImem_of_length_le hlen
  exact ⟨_, hm, fun policy k hk => ifetch_ofNat_of_loadImem hm policy hk, fun k _ b hb => read_of_loadImem hm k hb,
    fun a ha => read_of_loadImem_after hm ha, fun n s hs => (stateAfter_memories n s).1.trans hs⟩

/-- Settles O57: the bytes stand from address 0, and the data port puts four of them together. -/
theorem dataImageIsStored : Obligations.DataImageIsStored := by
  refine fun bs => ⟨fun hlen => ?_, fun hlen => ?_⟩
  · have hm := loadDmem_of_length_le hlen
    refine ⟨_, hm, read_ofBytesAt_zero bs, fun k hk => ?_, fun h hs => hostCall_loadDmem_of_ok hs hm⟩
    simp only [dataRead_ofNat _ hk, Memory.readWord, read_ofBytesAt_zero, wordOfBytes]
  · have hm := loadDmem_of_lt_length hlen
    exact ⟨hm, fun h hs => hostCall_loadDmem_of_error hs hm⟩

/-- Settles O48: each call by its equation; a step and a bounded run keep both memories, as every cycle does. -/
theorem hostWritesNothingDuringARun : Obligations.HostWritesNothingDuringARun := by
  refine ⟨fun _ => rfl, fun h ws hs => ⟨fun hlen => ?_, fun hlen => ?_⟩, ?_, ?_, fun h a => ?_, fun h => ⟨rfl, fun r => ?_⟩,
    fun h => ?_, fun h bound => ?_⟩
  · have hm := loadImem_of_length_le hlen
    exact ⟨_, hm, hostCall_loadImem_of_ok hs hm⟩
  · exact hostCall_loadImem_of_error hs (loadImem_of_lt_length hlen)
  · exact fun h ws hs => hostCall_loadImem_of_started hs ws
  · exact fun h bs hs => hostCall_loadDmem_of_started hs bs
  · cases hd : dataRead h.machine.dmem a <;> simp [hostCall, hd]
  · exact Vector.getElem_ofFn r.isLt
  · obtain ⟨hi, hd⟩ := stateAfter_memories 1 h.machine
    exact ⟨rfl, step_eq_next_stepState h.machine, hi, hd⟩
  · exact ⟨rfl, runUntilHalt_memories bound h.machine⟩

end Sys2Proof.Machine
end

section
/-! CLAIM. The session's invariant: a boot starts a legal run and every call keeps it (spec/70_reset_and_hazards.md R270, R271, R273,
R283; log 3, 12, 13, 14). -/

namespace Sys2Proof.Machine

/-! ### The invariant of a machine whose memories are replaced -/

theorem State.Inv.imem_legal {s : State} (hs : s.Inv) : s.imem.Legal imemBytes := ⟨hs.imemWf, hs.imemBelow⟩

theorem State.Inv.dmem_legal {s : State} (hs : s.Inv) : s.dmem.Legal dmemBytes := ⟨hs.dmemWf, hs.dmemBelow⟩

/-- A RUNNING machine has stopped on nothing, so other legal memories keep its invariant. -/
theorem State.Inv.withMemories {s : State} (hs : s.Inv) (hr : s.status = .running) {im dm : Memory} (hi : im.Legal imemBytes)
    (hd : dm.Legal dmemBytes) : { s with imem := im, dmem := dm }.Inv where
  zeroReg := hs.zeroReg
  pcAligned := hs.pcAligned
  imemWf := hi.wf
  imemBelow := hi.below
  dmemWf := hd.wf
  dmemBelow := hd.below
  status := statusExplained_of_running hr

theorem inv_resetOfLaunch_withMemories (n : Nat) {im dm : Memory} (hi : im.Legal imemBytes) (hd : dm.Legal dmemBytes) :
    { State.resetOfLaunch n with imem := im, dmem := dm }.Inv :=
  (resetMeetsTheInvariant n).withMemories rfl hi hd

/-! ### Boot -/

/-- A boot from a source starts exactly when the source assembles and both images load (R273). -/
theorem boot_ok_iff {h h' : Session} {source : List Text} {dmemInit : List Byte} : boot h source dmemInit = .ok h' ↔
    ∃ ws im dm, assemble source = .ok ws ∧ loadImem ws = .ok im ∧ loadDmem dmemInit = .ok dm ∧
      h' = ⟨{ State.resetOfLaunch (h.launch + 1) with imem := im, dmem := dm }, false, h.launch + 1⟩ := by
  unfold boot
  cases assemble source with
  | error reports => simp
  | ok words => simp [startRun_ok_iff]

/-- Settles O11: the session is a reset with two loaded memories, which are legal. -/
theorem bootMeetsTheInvariant : Obligations.BootMeetsTheInvariant := by
  refine ⟨fun h h' source dmemInit => boot_ok_iff, fun h h' source dmemInit hboot => ?_⟩
  obtain ⟨ws, im, dm, -, hi, hd, rfl⟩ := boot_ok_iff.mp hboot
  exact ⟨⟨inv_resetOfLaunch_withMemories _ (legal_of_loadImem hi) (legal_of_loadDmem hd), fun _ => rfl⟩, rfl, rfl, rfl⟩

/-! ### The calls -/

theorem stateAfter_inv (n : Nat) {s : State} (hs : s.Inv) : (stateAfter n s).Inv :=
  stateAfter_induction (fun _ _ hc => hc.inv) n s hs

section
variable {h : Session}

theorem Session.Inv.hostCall_reset (hh : h.Inv) : (hostCall h .reset).1.Inv :=
  ⟨inv_resetOfLaunch_withMemories _ hh.machine.imem_legal hh.machine.dmem_legal, fun _ => rfl⟩

/-- Other legal memories keep the invariant of a session that has not stepped. -/
theorem Session.Inv.withMemories (hh : h.Inv) (hs : h.started = false) {im dm : Memory} (hi : im.Legal imemBytes)
    (hd : dm.Legal dmemBytes) : Session.Inv { h with machine := { h.machine with imem := im, dmem := dm } } :=
  ⟨hh.machine.withMemories (hh.fresh hs) hi hd, hh.fresh⟩

theorem Session.Inv.hostCall_loadImem (hh : h.Inv) (ws : List Word) : (hostCall h (.loadImem ws)).1.Inv := by
  cases hs : h.started with
  | true => rwa [hostCall_loadImem_of_started hs]
  | false =>
    cases hm : loadImem ws with
    | error why => rwa [hostCall_loadImem_of_error hs hm]
    | ok m =>
      rw [hostCall_loadImem_of_ok hs hm]
      exact hh.withMemories hs (legal_of_loadImem hm) hh.machine.dmem_legal

theorem Session.Inv.hostCall_loadDmem (hh : h.Inv) (bs : List Byte) : (hostCall h (.loadDmem bs)).1.Inv := by
  cases hs : h.started with
  | true => rwa [hostCall_loadDmem_of_started hs]
  | false =>
    cases hm : loadDmem bs with
    | error why => rwa [hostCall_loadDmem_of_error hs hm]
    | ok m =>
      rw [hostCall_loadDmem_of_ok hs hm]
      exact hh.withMemories hs hh.machine.imem_legal (legal_of_loadDmem hm)

/-- A bounded run of no cycle leaves the machine as it was; any other is a first step. -/
theorem Session.Inv.hostCall_runUntilHalt (hh : h.Inv) (bound : Nat) : (hostCall h (.runUntilHalt bound)).1.Inv := by
  have hrun := runUntilHalt_eq_stateAfter bound h.machine
  have hinv : (runUntilHalt bound h.machine).1.Inv := hrun ▸ stateAfter_inv _ hh.machine
  refine ⟨hinv, fun hstarted => ?_⟩
  obtain ⟨hs, hcycles⟩ := Bool.or_eq_false_iff.mp hstarted
  have hzero : (runUntilHalt bound h.machine).2 = 0 := by simpa using hcycles
  rw [hzero, stateAfter_zero] at hrun
  exact (congrArg State.status hrun).trans (hh.fresh hs)

end

/-- Settles O12: call by call. -/
theorem hostCallsKeepTheInvariant : Obligations.HostCallsKeepTheInvariant := by
  intro h c hh
  cases c with
  | reset => exact hh.hostCall_reset
  | loadImem words => exact hh.hostCall_loadImem words
  | loadDmem bytes => exact hh.hostCall_loadDmem bytes
  | step => exact ⟨stateAfter_inv 1 hh.machine, fun hs => nomatch hs⟩
  | runUntilHalt bound => exact hh.hostCall_runUntilHalt bound
  | readState => exact hh
  | readDmem addr => rwa [hostCall_readDmem_session]

end Sys2Proof.Machine
end

section
/-! CLAIM. The drive: the exit status, the register dump, and a boot over persisted images (spec/70_reset_and_hazards.md R271, R272,
R273, R281 to R284; log 14, 22, 23). -/

namespace Sys2Proof.Machine

/-! ### The end of a drive -/

section
variable {h h' : Session} {source : List Text} {dmemInit : List Byte}

theorem boot_of_assemble_error {reports : List AsmReport} (ha : assemble source = .error reports) :
    boot h source dmemInit = .error (.assembly reports) := by
  simp [boot, ha]

theorem drive_of_boot_error {why : BootFailure} (hb : boot h source dmemInit = .error why) (bound : Nat) :
    drive h source dmemInit bound = .noRun why := by
  rw [drive, hb, driveFrom_error]

/-- A booted drive reports the bounded run of the booted session. -/
theorem drive_of_boot_ok (hb : boot h source dmemInit = .ok h') (bound : Nat) :
    drive h source dmemInit bound = report (hostCall h' (.runUntilHalt bound)).1 := by
  rw [drive, hb, driveFrom_ok]

end

/-- Settles O49: the four statuses by definition, and a drive by how its boot went. -/
theorem exitStatusOfARun : Obligations.ExitStatusOfARun := by
  refine ⟨rfl, rfl, fun _ _ _ => rfl, rfl, ?_, ?_⟩
  · intro h source dmemInit reports bound ha
    have hb : boot h source dmemInit = .error (.assembly reports) := boot_of_assemble_error ha
    have hd := drive_of_boot_error hb bound
    exact ⟨hb, hd, by rw [hd]; rfl⟩
  · intro h h' source dmemInit bound hb
    rw [drive_of_boot_ok hb, report_exit]
    rfl

/-! ### The register dump (R281) -/

theorem getElem?_registerTable : ∀ r : Reg, registerTable[r.val]? = some (registerNames[r.val].toList, r) := by decide

theorem length_registerTable : registerTable.length = 32 := rfl

@[simp] theorem length_registerDump (s : State) : (registerDump s).length = 32 := by
  rw [registerDump, List.length_map, length_registerTable]

/-- Row `r` of the dump is register `r`, by its name and value. -/
theorem getElem?_registerDump (s : State) (r : Reg) :
    (registerDump s)[r.val]? = some ⟨r, registerNames[r.val].toList, readReg s r⟩ := by
  rw [registerDump, List.getElem?_map, getElem?_registerTable]
  rfl

/-- Settles O58: the report of the session that the bounded run leaves, by its machine's status. -/
theorem driveEmitsTheRegisterDump : Obligations.DriveEmitsTheRegisterDump := by
  refine ⟨fun h h' source dmemInit bound hb => ⟨fun e he => ?_, fun hr => ?_⟩, ?_, ?_⟩
  · exact ⟨_, (drive_of_boot_ok hb bound).trans (report_of_exit he), rfl⟩
  · exact ⟨_, (drive_of_boot_ok hb bound).trans (report_of_running hr), rfl⟩
  · exact fun h source dmemInit bound why hb => drive_of_boot_error hb bound
  · exact fun s => ⟨length_registerDump s, getElem?_registerDump s⟩

/-! ### Persisted images (R272) -/

section
variable {h : Session} {lines imemLines dmemLines : List Text}

/-- A boot over persisted images starts exactly when both load (R273). -/
theorem bootImages_ok_iff {h' : Session} : bootImages h imemLines dmemLines = .ok h' ↔
    ∃ ws bs im dm, wordsOfLines imemLines = .ok ws ∧ bytesOfLines dmemLines = .ok bs ∧ loadImem ws = .ok im ∧
      loadDmem bs = .ok dm ∧
      h' = ⟨{ State.resetOfLaunch (h.launch + 1) with imem := im, dmem := dm }, false, h.launch + 1⟩ := by
  rw [bootImages, startRun_ok_iff]
  simp only [loadImemImage_ok_iff, loadDmemImage_ok_iff]
  constructor
  · rintro ⟨im, dm, ⟨ws, hws, hi⟩, ⟨bs, hbs, hd⟩, hh'⟩
    exact ⟨ws, bs, im, dm, hws, hbs, hi, hd, hh'⟩
  · rintro ⟨ws, bs, im, dm, hws, hbs, hi, hd, hh'⟩
    exact ⟨im, dm, ⟨ws, hws, hi⟩, ⟨bs, hbs, hd⟩, hh'⟩

/-- A refused image of either memory starts no run (R271, R272). -/
theorem bootImages_of_refused (hbad : ∃ lines ∈ [imemLines, dmemLines], IsRefusedImage lines) :
    ∃ why, bootImages h imemLines dmemLines = .error (.load why) := by
  unfold bootImages
  cases hi : loadImemImage imemLines with
  | error why => exact ⟨why, startRun_imem_error h why _⟩
  | ok im =>
    have hdmem : IsRefusedImage dmemLines := by
      obtain ⟨lines, hmem, hrefused⟩ := hbad
      rcases List.mem_pair.mp hmem with rfl | rfl
      · obtain ⟨why, hwhy⟩ := loadImemImage_of_refused hrefused
        cases hi.symm.trans hwhy
      · exact hrefused
    obtain ⟨why, hd⟩ := loadDmemImage_of_refused hdmem
    exact ⟨why, by rw [hd, startRun_dmem_error]⟩

theorem hostLoadImemImage_of_too_long (hlen : 4096 < lines.length) :
    ∃ why, hostLoadImemImage h lines = (h, .refused why) := by
  cases hw : wordsOfLines lines with
  | error why => exact ⟨why, hostLoadImemImage_of_error hw⟩
  | ok ws =>
    rw [hostLoadImemImage_of_ok hw]
    have hwords := length_of_wordsOfLines hw
    cases hs : h.started with
    | true => exact ⟨_, hostCall_loadImem_of_started hs ws⟩
    | false => exact ⟨_, hostCall_loadImem_of_error hs (loadImem_of_lt_length (by omega))⟩

theorem hostLoadDmemImage_of_too_long (hlen : 4096 < lines.length) :
    ∃ why, hostLoadDmemImage h lines = (h, .refused why) := by
  cases hb : bytesOfLines lines with
  | error why => exact ⟨why, hostLoadDmemImage_of_error hb⟩
  | ok bs =>
    rw [hostLoadDmemImage_of_ok hb]
    have hbytes := length_of_bytesOfLines hb
    cases hs : h.started with
    | true => exact ⟨_, hostCall_loadDmem_of_started hs bs⟩
    | false => exact ⟨_, hostCall_loadDmem_of_error hs (loadDmem_of_lt_length (by omega))⟩

/-- The host's load of an image that loads replaces that memory. -/
theorem hostLoadImemImage_of_loads {m : Memory} (hs : h.started = false) (hm : loadImemImage lines = .ok m) :
    hostLoadImemImage h lines = ({ h with machine := { h.machine with imem := m } }, .ok) := by
  obtain ⟨ws, hw, hload⟩ := loadImemImage_ok_iff.mp hm
  rw [hostLoadImemImage_of_ok hw, hostCall_loadImem_of_ok hs hload]

theorem hostLoadDmemImage_of_loads {m : Memory} (hs : h.started = false) (hm : loadDmemImage lines = .ok m) :
    hostLoadDmemImage h lines = ({ h with machine := { h.machine with dmem := m } }, .ok) := by
  obtain ⟨bs, hb, hload⟩ := loadDmemImage_ok_iff.mp hm
  rw [hostLoadDmemImage_of_ok hb, hostCall_loadDmem_of_ok hs hload]

/-- An image that fits loads as its words' bytes, then 0 (log 23). -/
theorem loadImemImage_of_fits {ws : List Word} (hlen : lines.length ≤ 4096) (hw : wordsOfLines lines = .ok ws) :
    ∃ m, loadImemImage lines = .ok m ∧ ∀ a, m.read a = (bytesOfWords ws).getD a 0#8 := by
  have hwords := length_of_wordsOfLines hw
  exact ⟨_, loadImemImage_ok_iff.mpr ⟨ws, hw, loadImem_of_length_le (by omega)⟩, read_ofBytesAt_zero _⟩

theorem loadDmemImage_of_fits {bs : List Byte} (hlen : lines.length ≤ 4096) (hb : bytesOfLines lines = .ok bs) :
    ∃ m, loadDmemImage lines = .ok m ∧ ∀ a, m.read a = bs.getD a 0#8 :=
  ⟨_, loadDmemImage_ok_iff.mpr ⟨bs, hb, loadDmem_of_length_le (length_of_bytesOfLines hb ▸ hlen)⟩, read_ofBytesAt_zero bs⟩

end

/-- Settles O60: a boot and a load by what their images give, and the written images by the invariant of their memories. -/
theorem persistedImagesAreLoaded : Obligations.PersistedImagesAreLoaded := by
  refine ⟨fun _ _ _ _ => bootImages_ok_iff, ?_, ?_, ?_, ?_, ?_, ?_⟩
  · intro h imemLines dmemLines bound hbad
    obtain ⟨why, hwhy⟩ := bootImages_of_refused (h := h) hbad
    exact ⟨why, hwhy, by rw [driveImages, hwhy, driveFrom_error]⟩
  · exact fun h lines hbad => ⟨hostLoadImemImage_of_error (wordsOfLines_of_malformed hbad),
      hostLoadDmemImage_of_error (bytesOfLines_of_malformed hbad)⟩
  · exact fun h lines hlen => ⟨hostLoadImemImage_of_too_long hlen, hostLoadDmemImage_of_too_long hlen⟩
  · exact fun lines hlen => ⟨fun ws => loadImemImage_of_fits hlen, fun bs => loadDmemImage_of_fits hlen⟩
  · exact fun h lines m hs => ⟨hostLoadImemImage_of_loads hs, hostLoadDmemImage_of_loads hs⟩
  · exact fun h hh => ⟨length_linesOfMemory .., length_linesOfMemory ..,
      loadImemImage_linesOfMemory hh.machine.imem_legal, loadDmemImage_linesOfMemory hh.machine.dmem_legal⟩

end Sys2Proof.Machine
end

section
/-! CLAIM. The words of the spec's vectors (spec/95_test_vectors.md sections 1, 2). -/

namespace Sys2Proof

/-- Settles O1: each word is what its instruction encodes to, unused fields included, and the decoder undoes the encoding. -/
theorem decodesWordsOfTheSpec : Obligations.DecodesWordsOfTheSpec :=
  ⟨decodeWord_of_encode (i := .add 10 8 9 0) rfl,
    decodeWord_of_encode (i := .add 16 10 0 0) rfl,
    decodeWord_of_encode (i := .add 0 0 0 31) rfl,
    decodeWord_of_encode (i := .mult 4 5 0 0) rfl,
    decodeWord_of_encode (i := .mult 4 5 31 0) rfl,
    decodeWord_of_encode (i := .mflo 2 0 0 0) rfl,
    decodeWord_of_encode (i := .mflo 2 31 31 0) rfl,
    decodeWord_zero,
    decodeWord_of_encode (i := .addi 8 0 (-1)) rfl,
    decodeWord_of_encode (i := .beq 10 0 (-3)) rfl,
    decodeWord_of_encode (i := .j 16) rfl⟩

end Sys2Proof
end
